-- ==== Sys2Proof/Word.lean ====
section
/-!
DEFINITION. The data shapes of the engine: bytes, four-byte words, the state matrix, a block or key of sixteen bytes,
and the round-key table (00_scope.md R12, R14; 10_state.md R20 to R22). Types and the bytewise XOR of words only:
indexing, layout and byte order stand in Machine/Operands.lean.
-/

namespace Sys2Proof

/-- A byte, bits 7 down to 0 (R12). -/
abbrev Byte := BitVec 8

/-- A word: four bytes, numbered 0 to 3, byte 0 the one that came first in the key (R12, R65). -/
structure Word where
  /-- byte 0 -/
  b0 : Byte
  /-- byte 1 -/
  b1 : Byte
  /-- byte 2 -/
  b2 : Byte
  /-- byte 3 -/
  b3 : Byte
  deriving DecidableEq, Repr

/-- The state matrix: 4 rows by 4 columns of bytes (R22), held by columns; byte `k` of column `c` is the byte
at row `k`, column `c`. -/
structure StateMatrix where
  /-- column 0 -/
  c0 : Word
  /-- column 1 -/
  c1 : Word
  /-- column 2 -/
  c2 : Word
  /-- column 3 -/
  c3 : Word
  deriving DecidableEq, Repr

/-- A block or a key: sixteen bytes numbered 0 to 15, byte 0 first (R12, R61). -/
abbrev Block := Vector Byte 16

/-- The round-key table: 44 words (R21). -/
abbrev Table := Vector Word 44

/-- XOR of two words: byte `k` with byte `k` (R121). -/
def Word.xor (a b : Word) : Word :=
  ⟨a.b0 ^^^ b.b0, a.b1 ^^^ b.b1, a.b2 ^^^ b.b2, a.b3 ^^^ b.b3⟩

/-- The word of four zero bytes. -/
def Word.zero : Word := ⟨0, 0, 0, 0⟩

/-- The matrix of sixteen zero bytes. -/
def StateMatrix.zero : StateMatrix := ⟨Word.zero, Word.zero, Word.zero, Word.zero⟩

end Sys2Proof
end

