-- ==== Sys2Proof/Machine/Galois.lean ====
section
/-!
DEFINITION. Arithmetic in GF(2^8) modulo x^8+x^4+x^3+x+1 (41_round_transforms.md R140 to R144). Addition is XOR (R141).
-/

namespace Sys2Proof.Machine

/-- `XTIME(b)`: shift left one bit into 9 bits; if the bit shifted out is 1, XOR with 0x1B; keep 8 bits (R140). -/
def xtime (b : Byte) : Byte :=
  let s : BitVec 9 := b.setWidth 9 <<< 1
  (if s.getLsbD 8 then s ^^^ 0x1B else s).setWidth 8

/-- `GMUL(k, b)`: for `j` from 0 to 7, add the `j`-fold doubling of `b` when bit `j` of `k` is 1 (R142). The pair is
the running sum and the running doubling. -/
def gmul (k b : Byte) : Byte :=
  ([0, 1, 2, 3, 4, 5, 6, 7].foldl
    (fun (rp : Byte × Byte) (j : Nat) => (if k.getLsbD j then rp.1 ^^^ rp.2 else rp.1, xtime rp.2)) (0, b)).1

end Sys2Proof.Machine
end

