-- ==== Sys2Proof/Config.lean ====
section
/-!
DEFINITION. What the spec leaves to the implementation or leaves unspecified, as constants with no body: nothing can
prove a value of one. `P_N_ENGINES` and `P_STEP_TIME` are not here: the model is of one instance and no rule depends on
the time of a step (92_eei_decisions.md, open parameters).
-/

namespace Sys2Proof

/-- The unspecified bytes a RESET event leaves in `W`, `S`, `RND`, `UOP` and `KI` (70_reset_and_hazards.md R230):
the `n`-th free value drawn. Log entry 2. -/
opaque Config.freeByte : Nat → Byte

/-- `P_RCON_UNUSED`: the entries of RCON that no rule reads, 0 and 11 to 14 (10_state.md R32). Log entry 8. -/
opaque Config.rconUnused : Nat → Byte

end Sys2Proof
end

