-- ==== Sys2Proof/Syntax.lean ====
section
/-!
DEFINITION. The instructions: the three host commands and the twelve micro-operations of spec/opcode_table.json
(30_encoding.md R93, R100), one constructor per row.
-/

namespace Sys2Proof

/-- An instruction. A command carries its payload `D[0..LEN-1]`; `LEN` is the payload's length (R91). A
micro-operation has no field (R100): what it works on is the engine's state. -/
inductive Instr where
  /-- LOAD_KEY, `OPC = 0x01`; the payload is the key (R120). -/
  | loadKey (data : List Byte)
  /-- ENCRYPT, `OPC = 0x02`; the payload is the plaintext block (R170). -/
  | encrypt (data : List Byte)
  /-- DECRYPT, `OPC = 0x03`; the payload is the ciphertext block (R172). -/
  | decrypt (data : List Byte)
  /-- KS_LOAD, code 0x0 (R125). -/
  | ksLoad
  /-- KS_WORD, code 0x1 (R126). -/
  | ksWord
  /-- KS_DONE, code 0x2 (R127). -/
  | ksDone
  /-- LOAD_STATE, code 0x3 (R174). -/
  | loadState
  /-- ADD_ROUND_KEY, code 0x4 (R145). -/
  | addRoundKey
  /-- SUB_BYTES, code 0x5 (R146). -/
  | subBytes
  /-- SHIFT_ROWS, code 0x6 (R148). -/
  | shiftRows
  /-- MIX_COLUMNS, code 0x7 (R150). -/
  | mixColumns
  /-- INV_SUB_BYTES, code 0x8 (R147). -/
  | invSubBytes
  /-- INV_SHIFT_ROWS, code 0x9 (R149). -/
  | invShiftRows
  /-- INV_MIX_COLUMNS, code 0xA (R151). -/
  | invMixColumns
  /-- STORE_STATE, code 0xB (R175). -/
  | storeState
  deriving DecidableEq, Repr

end Sys2Proof
end

