-- ==== Sys2Proof/WellFormed.lean ====
section
/-!
DEFINITION. Which instructions can be encoded. A command's payload is at most 255 bytes, because `LEN` has 8 bits
(30_encoding.md R91). `LEN` values other than 16 are legal to send (R98) and well formed; every payload byte is legal.
-/

namespace Sys2Proof

/-- The instruction can be put on the CMD port or into `UOP`. -/
def Instr.wellFormed : Instr → Bool
  | .loadKey d => decide (d.length ≤ 255)
  | .encrypt d => decide (d.length ≤ 255)
  | .decrypt d => decide (d.length ≤ 255)
  | .ksLoad => true
  | .ksWord => true
  | .ksDone => true
  | .loadState => true
  | .addRoundKey => true
  | .subBytes => true
  | .shiftRows => true
  | .mixColumns => true
  | .invSubBytes => true
  | .invShiftRows => true
  | .invMixColumns => true
  | .storeState => true

end Sys2Proof
end

