-- ==== Sys2Proof/Decode.lean ====
section
/-!
DEFINITION. Decoding and encoding (30_encoding.md R91, R93, R94, R97, R100). A command message is the bytes
`OPC, LEN, D[0], ..., D[LEN-1]`; a micro-operation is a 4-bit code held in the `UOP` field. Decoding is total on any
bytes and any code and rejects by name; the encoder stands after it.
-/

namespace Sys2Proof

/-- What an instruction is written as: a message on the CMD port, or a code in `UOP`. -/
inductive Encoded where
  /-- the bytes of a command message, header high byte first (R91) -/
  | message (bytes : List Byte)
  /-- a code of the `UOP` field (R100) -/
  | code (c : BitVec 4)
  deriving DecidableEq, Repr

/-- Why there is no instruction. -/
inductive DecodeError where
  /-- The bytes are not one whole command message: fewer than two header bytes, or a payload that is not `LEN`
  bytes (R91, R94). -/
  | notAMessage
  /-- The operation code is reserved: 0x00, 0x04 to 0xFF (R97). -/
  | reservedOpcode (opc : Byte)
  /-- The micro-operation code is unused: 0xC to 0xF (R100). -/
  | unusedMicroOp (c : BitVec 4)
  deriving DecidableEq, Repr

/-- The code of ADD_ROUND_KEY (R100). -/
def codeAddRoundKey : BitVec 4 := 0x4
/-- The code of SUB_BYTES (R100). -/
def codeSubBytes : BitVec 4 := 0x5
/-- The code of SHIFT_ROWS (R100). -/
def codeShiftRows : BitVec 4 := 0x6
/-- The code of MIX_COLUMNS (R100). -/
def codeMixColumns : BitVec 4 := 0x7
/-- The code of INV_SUB_BYTES (R100). -/
def codeInvSubBytes : BitVec 4 := 0x8
/-- The code of INV_SHIFT_ROWS (R100). -/
def codeInvShiftRows : BitVec 4 := 0x9
/-- The code of INV_MIX_COLUMNS (R100). -/
def codeInvMixColumns : BitVec 4 := 0xA
/-- The code of STORE_STATE (R100). -/
def codeStoreState : BitVec 4 := 0xB

/-- The bytes are one whole message: a header and exactly `LEN` payload bytes, `2 + LEN` in all, whatever `OPC` is
(R91, R94). -/
def isMessage : List Byte → Bool
  | _ :: len :: data => decide (data.length = len.toNat)
  | _ => false

/-- The command an operation code names (R93, R94); the payload is never inspected and its length is checked by the
command's own rule. -/
def decodeOpcode (opc : Byte) (data : List Byte) : Except DecodeError Instr :=
  if opc = 0x01 then .ok (.loadKey data)
  else if opc = 0x02 then .ok (.encrypt data)
  else if opc = 0x03 then .ok (.decrypt data)
  else .error (.reservedOpcode opc)

/-- Decode a command message (R94). -/
def decodeMessage : List Byte → Except DecodeError Instr
  | opc :: len :: data => if data.length = len.toNat then decodeOpcode opc data else .error .notAMessage
  | _ => .error .notAMessage

/-- The micro-operation of a code of `UOP` (R100). -/
def decodeMicroOp (c : BitVec 4) : Except DecodeError Instr :=
  if c = 0x0 then .ok .ksLoad
  else if c = 0x1 then .ok .ksWord
  else if c = 0x2 then .ok .ksDone
  else if c = 0x3 then .ok .loadState
  else if c = 0x4 then .ok .addRoundKey
  else if c = 0x5 then .ok .subBytes
  else if c = 0x6 then .ok .shiftRows
  else if c = 0x7 then .ok .mixColumns
  else if c = 0x8 then .ok .invSubBytes
  else if c = 0x9 then .ok .invShiftRows
  else if c = 0xA then .ok .invMixColumns
  else if c = 0xB then .ok .storeState
  else .error (.unusedMicroOp c)

/-- Decode what stands on the CMD port or in `UOP`. -/
def decode : Encoded → Except DecodeError Instr
  | .message bytes => decodeMessage bytes
  | .code c => decodeMicroOp c

/-- The bytes of a command: `OPC, LEN, D[0], ..., D[LEN-1]` (R91). -/
def encodeMessage (opc : Byte) (data : List Byte) : List Byte :=
  opc :: BitVec.ofNat 8 data.length :: data

/-- What a well-formed instruction is written as (R91, R93, R100). -/
def encode : Instr → Encoded
  | .loadKey d => .message (encodeMessage 0x01 d)
  | .encrypt d => .message (encodeMessage 0x02 d)
  | .decrypt d => .message (encodeMessage 0x03 d)
  | .ksLoad => .code 0x0
  | .ksWord => .code 0x1
  | .ksDone => .code 0x2
  | .loadState => .code 0x3
  | .addRoundKey => .code 0x4
  | .subBytes => .code 0x5
  | .shiftRows => .code 0x6
  | .mixColumns => .code 0x7
  | .invSubBytes => .code 0x8
  | .invShiftRows => .code 0x9
  | .invMixColumns => .code 0xA
  | .storeState => .code 0xB

/-- Byte `n` of a message whose 16-bit words are numbered as the opcode table numbers them: word 0 is bits 15 down to
0, each later word 16 bits higher, and a word's high byte comes first on the port (R91: header high byte first). -/
def tableByte (w n : Nat) : Byte :=
  BitVec.ofNat 8 (w / 2 ^ (16 * (n / 2) + (if n % 2 = 0 then 8 else 0)))

/-- The message whose header word is bits 15 to 0 of `w`, with the payload its `LEN` asks for. -/
def tableMessage (w : Nat) : List Byte :=
  (List.range (2 + (tableByte w 1).toNat)).map (tableByte w)

/-- What the table's numbering of an instruction's bits stands for: a row of at most 8 bits is a micro-operation code,
a longer one a command message. Bits above `nbits` are 0. -/
def tableEncoded (nbits w : Nat) : Option Encoded :=
  if nbits ≤ 8 then
    if w % 2 ^ nbits < 16 then some (.code (BitVec.ofNat 4 (w % 2 ^ nbits))) else none
  else some (.message (tableMessage (w % 2 ^ nbits)))

/-- The instruction the decoder reads from an instruction whose bits are `w`, numbered as the opcode table numbers
them. -/
def decodeTableWord (nbits w : Nat) : Option Instr :=
  match tableEncoded nbits w with
  | some e => (decode e).toOption
  | none => none

end Sys2Proof
end

