-- ==== Sys2Proof/Machine/State.lean ====
section
/-!
DEFINITION. The machine's state as plain data: the engine's registers (10_state.md R20), its two message ports
(R36), the host's side of them (42_cipher_datapath.md R184, 70_reset_and_hazards.md R239), and the state after reset (R38).
-/

namespace Sys2Proof.Machine

/-- The `OP` field: the operation in progress (R24); its codes are in Machine/Flags.lean. -/
inductive Op where
  /-- no command in progress, code 0 -/
  | idle
  /-- key expansion, code 1 -/
  | keyExp
  /-- encryption, code 2 -/
  | enc
  /-- decryption, code 3 -/
  | dec
  deriving DecidableEq, Repr

/-- The error kinds (60_exceptions.md R200). -/
inductive ErrorKind where
  /-- a LOAD_KEY whose `LEN` is not 16 (R201) -/
  | invalidKeyLength
  /-- an ENCRYPT or DECRYPT whose `LEN` is not 16 (R202) -/
  | invalidBlockLength
  /-- an ENCRYPT or DECRYPT with `KEY_VALID = 0` (R203) -/
  | uninitializedKey
  /-- a command with a reserved `OPC` (R204) -/
  | illegalCommand
  deriving DecidableEq, Repr

/-- The `STAT` field of a response (30_encoding.md R92); its codes are in Machine/Flags.lean. No other status is ever
produced (R200). -/
inductive Status where
  /-- the command succeeded -/
  | ok
  /-- the command failed, with the kind of its error -/
  | error (e : ErrorKind)
  deriving DecidableEq, Repr

/-- A response message (R92): its status and its payload `Q[0..RLEN-1]`; `RLEN` is the payload's length. -/
structure Response where
  /-- `STAT` -/
  stat : Status
  /-- `Q[0]` to `Q[RLEN-1]` -/
  data : List Byte
  deriving DecidableEq, Repr

/-- What the host does (R184), and `engineTurn`, by which the host does nothing for one transition of the engine.
Log entry 3. -/
inductive HostAction where
  /-- offer the bytes of a command message on the CMD port -/
  | offer (bytes : List Byte)
  /-- read the next response from the RSP port, waiting until there is one -/
  | readResponse
  /-- read `STATUS` on the side-band port (R25) -/
  | readStatus
  /-- assert reset (R230) -/
  | assertReset
  /-- let the engine make one transition -/
  | engineTurn
  deriving DecidableEq, Repr

/-- The whole machine: one engine instance, its ports, and the host's side of them. -/
structure State where
  /-- `W[0..43]`, the round-key table (R20, R21) -/
  W : Table
  /-- `S[0..3][0..3]`, the state matrix (R20, R22) -/
  S : StateMatrix
  /-- `KEY_VALID` (R23) -/
  keyValid : Bool
  /-- `OP` (R24) -/
  op : Op
  /-- `RND`, the round counter (R27) -/
  rnd : BitVec 4
  /-- `UOP`, the code of the micro-operation the next engine step performs (R28) -/
  uop : BitVec 4
  /-- `KI`, the key-schedule word index (R29) -/
  ki : BitVec 6
  /-- the command held on the CMD port, at most one (R36, R77) -/
  cmd : Option (List Byte)
  /-- the responses emitted so far on the RSP port, oldest first (R36) -/
  rsp : List Response
  /-- how many of them the host has read (R36, R184) -/
  rspRead : Nat
  /-- the values the host's STATUS reads have returned, oldest first (R239) -/
  statusReads : List Byte
  /-- what the host does from now on (R239); when empty, only the engine moves. Log entry 3. -/
  plan : List HostAction
  /-- how many free values have been drawn; the model's own field. Log entry 2. -/
  draws : Nat
  deriving DecidableEq, Repr

/-- Why the machine stops. Every one is for a state that no run reaches: a step of a reachable state never faults
(R178, and the invariant of Sys2Proof/Safety.lean). Log entry 5. -/
inductive Fault where
  /-- Raised by KS_LOAD, KS_WORD, KS_DONE, LOAD_STATE and STORE_STATE when the condition their rule gives for being
  enabled does not hold (R125, R126, R127, R174, R175). Safe: the model stops where no rule gives an effect. -/
  | microOpNotEnabled
  /-- Raised by KS_WORD when `KI < 4` and by ADD_ROUND_KEY when `RND > 10`: a word index outside the table (R68).
  Safe: the model stops where no rule gives an effect. -/
  | wordOutOfRange
  /-- Raised by the step when `OP` is ENC or DEC and `UOP` holds an unused code, 0xC to 0xF (R100, 93 U9).
  Safe: the model stops where no rule gives an effect. -/
  | unusedMicroOp
  /-- Raised by the step when `(RND, UOP)` is no position of R176 (ENC) or R177 (DEC), so that there is no next
  position. Safe: the model stops where no rule gives an effect. -/
  | positionOffTheWalk
  deriving DecidableEq, Repr

/-- Why a step has no meaning. -/
inductive Refusal where
  /-- Raised by an arm of exec for an instruction not modelled yet; no arm does so. Safe. -/
  | notModelled (mnemonic : String)
  /-- Raised by the step when the bytes held on the CMD port are not one whole command message (R91, R94): below the
  message level, which the spec does not describe (93 U18). Safe. Log entry 6. -/
  | notACommandMessage
  deriving DecidableEq, Repr

/-- The state right after reset (R38). `KEY_VALID`, `OP` and the CMD port as the spec says; `W`, `S`, `RND`, `UOP` and
`KI`, for which the spec gives no value, are zero (DESIGN CHOICE, unsafe, log entry 1); no response emitted, none read,
no STATUS value read and no host action to come (DEDUCED, safe, log entry 4); `draws` is zero (DESIGN CHOICE, safe, log
entry 2). -/
def State.reset : State where
  W := Vector.replicate 44 Word.zero
  S := StateMatrix.zero
  keyValid := false
  op := .idle
  rnd := 0
  uop := 0
  ki := 0
  cmd := none
  rsp := []
  rspRead := 0
  statusReads := []
  plan := []
  draws := 0

end Sys2Proof.Machine
end

