-- ==== Sys2Proof/Machine/Flags.lean ====
section
/-!
DEFINITION. The flags and the codes software sees: `BUSY` and the `STATUS` register (10_state.md R24, R25), the codes of
`OP` (30_encoding.md R101), the status codes and the bytes of a response (R92; 60_exceptions.md R200). No transform has
a flag result (41_round_transforms.md R144).
-/

namespace Sys2Proof.Machine

/-- The code of the `OP` field (R101). -/
def Op.code : Op → BitVec 2
  | .idle => 0
  | .keyExp => 1
  | .enc => 2
  | .dec => 3

/-- `BUSY`: `OP != IDLE` (R24). -/
def State.busy (s : State) : Bool := decide (s.op ≠ .idle)

/-- `STATUS` as a read returns it now: bit 0 `KEY_VALID`, bit 1 `BUSY`, bits [7:2] zero (R25). -/
def State.status (s : State) : Byte :=
  (0 : BitVec 6) ++ BitVec.ofBool s.busy ++ BitVec.ofBool s.keyValid

/-- The number of an error kind (R200). -/
def ErrorKind.code : ErrorKind → Byte
  | .invalidKeyLength => 0x01
  | .invalidBlockLength => 0x02
  | .uninitializedKey => 0x03
  | .illegalCommand => 0x04

/-- `STAT` (R200). -/
def Status.code : Status → Byte
  | .ok => 0x00
  | .error e => e.code

/-- A response as bytes: `STAT, RLEN, Q[0], ..., Q[RLEN-1]` (R92). -/
def Response.bytes (r : Response) : List Byte :=
  r.stat.code :: BitVec.ofNat 8 r.data.length :: r.data

/-- The pairs of `STAT` and `RLEN` that occur: OK with 0 or 16 bytes, an error with none (R92). -/
def Response.legal (r : Response) : Bool :=
  match r.stat with
  | .ok => decide (r.data.length = 0 ∨ r.data.length = 16)
  | .error _ => decide (r.data = [])

end Sys2Proof.Machine
end

