-- ==== Sys2Proof/Machine/Operands.lean ====
section
/-!
DEFINITION. Operand forms: byte numbering inside words, the row and column numbering of the state matrix, byte order,
the layout of blocks and keys, and the round-key fetch (20_memory.md R61 to R66; 30_encoding.md R95, R96).
-/

namespace Sys2Proof

/-- `w.b[k]` (R14). -/
def Word.byte (w : Word) (k : Fin 4) : Byte :=
  match k with
  | 0 => w.b0
  | 1 => w.b1
  | 2 => w.b2
  | 3 => w.b3

/-- The word whose byte `k` is `f k`. -/
def Word.ofFn (f : Fin 4 → Byte) : Word := ⟨f 0, f 1, f 2, f 3⟩

/-- A word as one 32-bit number: byte 0 is bits [31:24], byte 3 bits [7:0] (R65). -/
def Word.toBits (w : Word) : BitVec 32 := w.b0 ++ w.b1 ++ w.b2 ++ w.b3

/-- The word of a 32-bit number (R65). -/
def Word.ofBits (x : BitVec 32) : Word :=
  ⟨x.extractLsb' 24 8, x.extractLsb' 16 8, x.extractLsb' 8 8, x.extractLsb' 0 8⟩

/-- Column `c` of the matrix. -/
def StateMatrix.column (M : StateMatrix) (c : Fin 4) : Word :=
  match c with
  | 0 => M.c0
  | 1 => M.c1
  | 2 => M.c2
  | 3 => M.c3

/-- `M[r][c]`: row `r`, column `c` (R14). -/
def StateMatrix.get (M : StateMatrix) (r c : Fin 4) : Byte := (M.column c).byte r

/-- The matrix whose byte at row `r`, column `c` is `f r c`. -/
def StateMatrix.ofFn (f : Fin 4 → Fin 4 → Byte) : StateMatrix :=
  ⟨Word.ofFn (f · 0), Word.ofFn (f · 1), Word.ofFn (f · 2), Word.ofFn (f · 3)⟩

/-- The matrix with `f` applied to every byte, no byte moved. -/
def StateMatrix.map (f : Byte → Byte) (M : StateMatrix) : StateMatrix :=
  StateMatrix.ofFn fun r c => f (M.get r c)

/-- The matrix with `f` applied to every column. -/
def StateMatrix.mapColumns (f : Word → Word) (M : StateMatrix) : StateMatrix :=
  ⟨f M.c0, f M.c1, f M.c2, f M.c3⟩

/-- `IntToBytes`: byte `i` is bits `[127-8i : 120-8i]` (R61, R62). -/
def intToBytes (x : BitVec 128) : Block :=
  Vector.ofFn fun i => (x >>> (8 * (15 - i.val))).setWidth 8

/-- `BytesToInt`: byte 0 most significant (R62). -/
def bytesToInt (b : Block) : BitVec 128 :=
  b.toList.foldl (fun x v => (x <<< 8) ^^^ v.setWidth 128) 0

/-- `ToMatrix`: `M[r][c] = b[r + 4c]`, column-major (R63). -/
def toMatrix (b : Block) : StateMatrix :=
  StateMatrix.ofFn fun r c => b[r.val + 4 * c.val]

/-- `FromMatrix`: `b[i] = M[i mod 4][i / 4]` (R63). -/
def fromMatrix (M : StateMatrix) : Block :=
  Vector.ofFn fun i => M.get ⟨i.val % 4, by omega⟩ ⟨i.val / 4, by omega⟩

/-- Word `c` of a key: `W[c].b[k] = key[4c + k]` (R64). -/
def keyWord (key : Block) (c : Fin 4) : Word :=
  Word.ofFn fun k => key[4 * c.val + k.val]

/-- The table with words 0 to 3 copied from the key, the others as they were (R64, R125). -/
def loadKeyWords (W : Table) (key : Block) : Table :=
  (((W.set 0 (keyWord key 0)).set 1 (keyWord key 1)).set 2 (keyWord key 2)).set 3 (keyWord key 3)

/-- The key a table was made from: its words 0 to 3 are the key (10_state.md R21, 40_key_schedule.md R129 (c)). -/
def keyOfTable (W : Table) : Block :=
  Vector.ofFn fun i => (W[i.val / 4]).byte ⟨i.val % 4, by omega⟩

/-- `RoundKey(r)`: column `c` is word `W[4r + c]`, byte `k` of the word in row `k` (R66). -/
def roundKey (W : Table) (r : Fin 11) : StateMatrix :=
  StateMatrix.ofFn fun k c => (W[4 * r.val + c.val]).byte k

/-- A payload as a key or block: there is one exactly when `LEN = 16` (R67, R95). -/
def blockOf (data : List Byte) : Option Block :=
  if h : data.length = 16 then some ⟨data.toArray, h⟩ else none

end Sys2Proof
end

