-- ==== Sys2Proof/Machine/Ops.lean ====
section
/-!
DEFINITION. The named operations on the state: one writer per register, emitting a response, raising an error (this
hardware's only exception), and the reset event. There is no memory, so there are no memory operations (20_memory.md
R60, R67).
-/

namespace Sys2Proof.Machine

/-- Write the whole round-key table. -/
def State.setTable (s : State) (W : Table) : State := { s with W := W }

/-- Write the whole state matrix. -/
def State.setMatrix (s : State) (S : StateMatrix) : State := { s with S := S }

/-- Write `KEY_VALID`. -/
def State.setKeyValid (s : State) (v : Bool) : State := { s with keyValid := v }

/-- Write `OP`. -/
def State.setOp (s : State) (o : Op) : State := { s with op := o }

/-- `upc <- (r, u)`: write `RND` and `UOP` (R15). -/
def State.setPosition (s : State) (r u : BitVec 4) : State := { s with rnd := r, uop := u }

/-- Write `KI`. -/
def State.setKi (s : State) (k : BitVec 6) : State := { s with ki := k }

/-- Put a message on the CMD port, or take the held one away. -/
def State.setCmd (s : State) (c : Option (List Byte)) : State := { s with cmd := c }

/-- Write what the host does from now on. -/
def State.setPlan (s : State) (p : List HostAction) : State := { s with plan := p }

/-- `respond(code, bytes)`: append one response to the RSP history; it never waits for the host (R15, R36, R92). -/
def State.respond (s : State) (stat : Status) (data : List Byte) : State :=
  { s with rsp := s.rsp ++ [⟨stat, data⟩] }

/-- The host reads the next response: it counts as read and stays in the history (R36). -/
def State.readResponse (s : State) : State := { s with rspRead := s.rspRead + 1 }

/-- The host reads `STATUS`: the value is returned to it and no register changes (R25). -/
def State.readStatus (s : State) : State := { s with statusReads := s.statusReads ++ [s.status] }

/-- `raise E`, the hardware's one exception entry (60_exceptions.md R206): inside the accept transition the command
leaves the CMD port, one response with the code of `E` and no data is emitted, and the command is over. No engine
state is written. There is no return from an error (R207): the engine is idle and accepts the next command. -/
def State.raiseError (s : State) (e : ErrorKind) : State :=
  (s.setCmd none).respond (.error e) []

/-- A word of four free bytes. -/
def freeWord (n : Nat) : Word :=
  ⟨Config.freeByte n, Config.freeByte (n + 1), Config.freeByte (n + 2), Config.freeByte (n + 3)⟩

/-- A table of free words. -/
@[irreducible] def freeTable (n : Nat) : Table := Vector.ofFn fun i => freeWord (n + 4 * i.val)

/-- A matrix of free words. -/
@[irreducible] def freeMatrix (n : Nat) : StateMatrix := ⟨freeWord n, freeWord (n + 4), freeWord (n + 8), freeWord (n + 12)⟩

/-- How many free bytes a reset event draws: 176 for `W`, 16 for `S`, one each for `RND`, `UOP` and `KI`. -/
def resetDraws : Nat := 195

/-- The reset event (70_reset_and_hazards.md R230, R231): idle, no valid key, the held command dropped; `W`, `S`, `RND`,
`UOP` and `KI` become free values; what the RSP port has emitted and what the host has read stay. DESIGN CHOICE, log
entry 2: the free values are drawn from `Config.freeByte` at a counter that moves on. -/
def State.resetEvent (s : State) : State :=
  { s with
    W := freeTable s.draws
    S := freeMatrix (s.draws + 176)
    keyValid := false
    op := .idle
    rnd := (Config.freeByte (s.draws + 192)).setWidth 4
    uop := (Config.freeByte (s.draws + 193)).setWidth 4
    ki := (Config.freeByte (s.draws + 194)).setWidth 6
    cmd := none
    draws := s.draws + resetDraws }

end Sys2Proof.Machine
end

