-- ==== Sys2Proof/Machine/Tables.lean ====
section
/-!
DEFINITION. The three constant tables of the chip, SBOX, INV_SBOX and RCON (10_state.md R30 to R33): constants, not state.
The contents of SBOX and of RCON[1..10] are the spec's own, supplied there from general knowledge and checked by its
vectors (93_implementation_defined.md G1, G3, G4). Log entry 10.
-/

namespace Sys2Proof.Machine

/-- Row `h` of SBOX, the sixteen entries of the indices `hx`, entry `h0` in the most significant byte (R30). -/
def sboxRow : Nat → BitVec 128
  | 0 => 0x637C777BF26B6FC53001672BFED7AB76
  | 1 => 0xCA82C97DFA5947F0ADD4A2AF9CA472C0
  | 2 => 0xB7FD9326363FF7CC34A5E5F171D83115
  | 3 => 0x04C723C31896059A071280E2EB27B275
  | 4 => 0x09832C1A1B6E5AA0523BD6B329E32F84
  | 5 => 0x53D100ED20FCB15B6ACBBE394A4C58CF
  | 6 => 0xD0EFAAFB434D338545F9027F503C9FA8
  | 7 => 0x51A3408F929D38F5BCB6DA2110FFF3D2
  | 8 => 0xCD0C13EC5F974417C4A77E3D645D1973
  | 9 => 0x60814FDC222A908846EEB814DE5E0BDB
  | 10 => 0xE0323A0A4906245CC2D3AC629195E479
  | 11 => 0xE7C8376D8DD54EA96C56F4EA657AAE08
  | 12 => 0xBA78252E1CA6B4C6E8DD741F4BBD8B8A
  | 13 => 0x703EB5664803F60E613557B986C11D9E
  | 14 => 0xE1F8981169D98E949B1E87E9CE5528DF
  | _ => 0x8CA1890DBFE6426841992D0FB054BB16

/-- Row `h` of INV_SBOX, laid out as `sboxRow` (R31). -/
def invSboxRow : Nat → BitVec 128
  | 0 => 0x52096AD53036A538BF40A39E81F3D7FB
  | 1 => 0x7CE339829B2FFF87348E4344C4DEE9CB
  | 2 => 0x547B9432A6C2233DEE4C950B42FAC34E
  | 3 => 0x082EA16628D924B2765BA2496D8BD125
  | 4 => 0x72F8F66486689816D4A45CCC5D65B692
  | 5 => 0x6C704850FDEDB9DA5E154657A78D9D84
  | 6 => 0x90D8AB008CBCD30AF7E45805B8B34506
  | 7 => 0xD02C1E8FCA3F0F02C1AFBD0301138A6B
  | 8 => 0x3A9111414F67DCEA97F2CFCEF0B4E673
  | 9 => 0x96AC7422E7AD3585E2F937E81C75DF6E
  | 10 => 0x47F11A711D29C5896FB7620EAA18BE1B
  | 11 => 0xFC563E4BC6D279209ADBC0FE78CD5AF4
  | 12 => 0x1FDDA8338807C731B11210592780EC5F
  | 13 => 0x60517FA919B54A0D2DE57A9F93C99CEF
  | 14 => 0xA0E03B4DAE2AF5B0C8EBBB3C83539961
  | _ => 0x172B047EBA77D626E169146355210C7D

/-- The entry of index `x` of a table given by rows of sixteen: row = high hex digit, column = low hex digit. -/
def tableEntry (row : Nat → BitVec 128) (x : Byte) : Byte :=
  (row (x.toNat / 16) >>> (8 * (15 - x.toNat % 16))).setWidth 8

/-- `SBOX[x]` (R30). -/
def sbox (x : Byte) : Byte := tableEntry sboxRow x

/-- `INV_SBOX[x]` (R31). -/
def invSbox (x : Byte) : Byte := tableEntry invSboxRow x

/-- `RCON[j]` (R32): entries 1 to 10; the five others are read by no rule and are left open (`P_RCON_UNUSED`, log entry
8). -/
def rcon (j : Fin 15) : Byte :=
  match j.val with
  | 1 => 0x01
  | 2 => 0x02
  | 3 => 0x04
  | 4 => 0x08
  | 5 => 0x10
  | 6 => 0x20
  | 7 => 0x40
  | 8 => 0x80
  | 9 => 0x1B
  | 10 => 0x36
  | n => Config.rconUnused n

end Sys2Proof.Machine
end

