-- ==== Sys2Proof/Machine/Transforms.lean ====
section
/-!
DEFINITION. The round-transform family (41_round_transforms.md R145 to R151): the seven elementary transforms as
functions of the matrix, and the micro-operations that perform them. Each reads the whole old matrix and writes the
whole new one, and is total (R154). Where the sequencer goes next is the step's part (42_cipher_datapath.md R178).
-/

namespace Sys2Proof.Machine

/-- AddRoundKey: bytewise XOR with a round key (R145). -/
def addRoundKey (S K : StateMatrix) : StateMatrix :=
  StateMatrix.ofFn fun r c => S.get r c ^^^ K.get r c

/-- SubBytes: every byte through SBOX (R146). -/
def subBytes (S : StateMatrix) : StateMatrix := S.map sbox

/-- InvSubBytes: every byte through INV_SBOX (R147). -/
def invSubBytes (S : StateMatrix) : StateMatrix := S.map invSbox

/-- ShiftRows: `S'[r][c] = S[r][(c + r) mod 4]`; the sum of two column numbers wraps at 4 (R148). -/
def shiftRows (S : StateMatrix) : StateMatrix :=
  StateMatrix.ofFn fun r c => S.get r (c + r)

/-- InvShiftRows: `S'[r][c] = S[r][(c + 4 - r) mod 4]` (R149). -/
def invShiftRows (S : StateMatrix) : StateMatrix :=
  StateMatrix.ofFn fun r c => S.get r ⟨(c.val + 4 - r.val) % 4, Nat.mod_lt _ (by decide)⟩

/-- A column times the forward matrix (R150). -/
def mixColumn (a : Word) : Word :=
  ⟨gmul 2 a.b0 ^^^ gmul 3 a.b1 ^^^ a.b2 ^^^ a.b3,
   a.b0 ^^^ gmul 2 a.b1 ^^^ gmul 3 a.b2 ^^^ a.b3,
   a.b0 ^^^ a.b1 ^^^ gmul 2 a.b2 ^^^ gmul 3 a.b3,
   gmul 3 a.b0 ^^^ a.b1 ^^^ a.b2 ^^^ gmul 2 a.b3⟩

/-- A column times the inverse matrix (R151). -/
def invMixColumn (a : Word) : Word :=
  ⟨gmul 14 a.b0 ^^^ gmul 11 a.b1 ^^^ gmul 13 a.b2 ^^^ gmul 9 a.b3,
   gmul 9 a.b0 ^^^ gmul 14 a.b1 ^^^ gmul 11 a.b2 ^^^ gmul 13 a.b3,
   gmul 13 a.b0 ^^^ gmul 9 a.b1 ^^^ gmul 14 a.b2 ^^^ gmul 11 a.b3,
   gmul 11 a.b0 ^^^ gmul 13 a.b1 ^^^ gmul 9 a.b2 ^^^ gmul 14 a.b3⟩

/-- MixColumns: the four columns each alone (R150). -/
def mixColumns (S : StateMatrix) : StateMatrix := S.mapColumns mixColumn

/-- InvMixColumns (R151). -/
def invMixColumns (S : StateMatrix) : StateMatrix := S.mapColumns invMixColumn

/-- ADD_ROUND_KEY: `S <- S XOR RoundKey(RND)`, for `RND` from 0 to 10 (R145, R66). -/
def execAddRoundKey (s : State) : Host.Outcome State Fault Refusal :=
  if h : s.rnd.toNat < 11 then .next (s.setMatrix (addRoundKey s.S (roundKey s.W ⟨s.rnd.toNat, h⟩)))
  else .fault .wordOutOfRange

/-- SUB_BYTES (R146). -/
def execSubBytes (s : State) : Host.Outcome State Fault Refusal := .next (s.setMatrix (subBytes s.S))

/-- SHIFT_ROWS (R148). -/
def execShiftRows (s : State) : Host.Outcome State Fault Refusal := .next (s.setMatrix (shiftRows s.S))

/-- MIX_COLUMNS (R150). -/
def execMixColumns (s : State) : Host.Outcome State Fault Refusal := .next (s.setMatrix (mixColumns s.S))

/-- INV_SUB_BYTES (R147). -/
def execInvSubBytes (s : State) : Host.Outcome State Fault Refusal := .next (s.setMatrix (invSubBytes s.S))

/-- INV_SHIFT_ROWS (R149). -/
def execInvShiftRows (s : State) : Host.Outcome State Fault Refusal := .next (s.setMatrix (invShiftRows s.S))

/-- INV_MIX_COLUMNS (R151). -/
def execInvMixColumns (s : State) : Host.Outcome State Fault Refusal := .next (s.setMatrix (invMixColumns s.S))

end Sys2Proof.Machine
end

