-- ==== Sys2Proof/Machine/Datapath.lean ====
section
/-!
DEFINITION. The cipher datapath family (42_cipher_datapath.md): the functions `Encrypt` and `Decrypt`, the commands
ENCRYPT and DECRYPT, and the micro-operations LOAD_STATE and STORE_STATE.
-/

namespace Sys2Proof.Machine

/-- AddRoundKey with round key `r` of the table, `table.round(r)` (R171, R173). -/
def keyed (W : Table) (r : Fin 11) (S : StateMatrix) : StateMatrix := addRoundKey S (roundKey W r)

/-- A full forward round: SubBytes, ShiftRows, MixColumns, AddRoundKey (R171). -/
def encryptRound (W : Table) (S : StateMatrix) (r : Fin 11) : StateMatrix :=
  keyed W r (mixColumns (shiftRows (subBytes S)))

/-- `Encrypt(block, W)` (R171): round key 0, full rounds 1 to 9, and round 10 with no MixColumns. -/
def encrypt (block : Block) (W : Table) : Block :=
  let S := [1, 2, 3, 4, 5, 6, 7, 8, 9].foldl (encryptRound W) (keyed W 0 (toMatrix block))
  fromMatrix (keyed W 10 (shiftRows (subBytes S)))

/-- A full inverse round: AddRoundKey, InvMixColumns, InvShiftRows, InvSubBytes (R173). -/
def decryptRound (W : Table) (S : StateMatrix) (r : Fin 11) : StateMatrix :=
  invSubBytes (invShiftRows (invMixColumns (keyed W r S)))

/-- `Decrypt(block, W)` (R173): round key 10, InvShiftRows, InvSubBytes, rounds 9 down to 1, round key 0. -/
def decrypt (block : Block) (W : Table) : Block :=
  let S := invSubBytes (invShiftRows (keyed W 10 (toMatrix block)))
  fromMatrix (keyed W 0 ([9, 8, 7, 6, 5, 4, 3, 2, 1].foldl (decryptRound W) S))

/-- The effect of LOAD_STATE for ENCRYPT: take the command, load the block, start at round 0 (R174). -/
def startEncrypt (block : Block) (s : State) : State :=
  (((s.setCmd none).setMatrix (toMatrix block)).setOp .enc).setPosition 0 codeAddRoundKey

/-- The effect of LOAD_STATE for DECRYPT: take the command, load the block, start at round 10 (R174). -/
def startDecrypt (block : Block) (s : State) : State :=
  (((s.setCmd none).setMatrix (toMatrix block)).setOp .dec).setPosition 10 codeAddRoundKey

/-- The accept of a command that works on a block: the length is checked first, then the key (R170, R172, R174,
60_exceptions.md R202, R203, R205). While the engine is busy the command stays held and nothing happens (R77).
DEDUCED, log entry 12. -/
def acceptBlock (start : Block → State → State) (data : List Byte) (s : State) : Host.Outcome State Fault Refusal :=
  if s.busy then .next s
  else
    match blockOf data with
    | none => .next (s.raiseError .invalidBlockLength)
    | some block => if s.keyValid then .next (start block s) else .next (s.raiseError .uninitializedKey)

/-- ENCRYPT, its accept transition (R170, R174). -/
def execEncrypt (data : List Byte) (s : State) : Host.Outcome State Fault Refusal := acceptBlock startEncrypt data s

/-- DECRYPT, its accept transition (R172, R174). -/
def execDecrypt (data : List Byte) (s : State) : Host.Outcome State Fault Refusal := acceptBlock startDecrypt data s

/-- What LOAD_STATE does to a state whose idle engine holds an ENCRYPT or DECRYPT of 16 bytes and has a valid key:
nothing is loaded otherwise (R174). DEDUCED, log entry 13. -/
def heldLoad (s : State) : Option State :=
  match s.op, s.keyValid, s.cmd with
  | .idle, true, some bytes =>
    match decodeMessage bytes with
    | .ok (.encrypt data) => (blockOf data).map (startEncrypt · s)
    | .ok (.decrypt data) => (blockOf data).map (startDecrypt · s)
    | _ => none
  | _, _, _ => none

/-- LOAD_STATE (R174): performed inside the accept of an ENCRYPT or DECRYPT that passed both checks. -/
def execLoadState (s : State) : Host.Outcome State Fault Refusal :=
  match heldLoad s with
  | some t => .next t
  | none => .fault .microOpNotEnabled

/-- STORE_STATE (R175): enabled when `OP` is ENC or DEC and `UOP = STORE_STATE`; respond OK with the block of `S`, then
idle. `S` is not cleared. -/
def execStoreState (s : State) : Host.Outcome State Fault Refusal :=
  if (s.op = .enc ∨ s.op = .dec) ∧ s.uop = codeStoreState then
    .next ((s.respond .ok (fromMatrix s.S).toList).setOp .idle)
  else .fault .microOpNotEnabled

end Sys2Proof.Machine
end

