-- ==== Sys2Proof/Machine/KeySchedule.lean ====
section
/-!
DEFINITION. The key schedule family (40_key_schedule.md): the word helpers, the function `Expand`, the command LOAD_KEY
and the micro-operations KS_LOAD, KS_WORD and KS_DONE.
-/

namespace Sys2Proof.Machine

/-- `ROT_WORD`: the four bytes rotated left by one byte position (R122). -/
def rotWord (w : Word) : Word := ⟨w.b1, w.b2, w.b3, w.b0⟩

/-- `SUB_WORD`: each byte through the S-box (R123). -/
def subWord (w : Word) : Word := ⟨sbox w.b0, sbox w.b1, sbox w.b2, sbox w.b3⟩

/-- `TEMP(w, j)`: rotate, substitute, and XOR byte 0 with `RCON[j]` (R124). -/
def temp (w : Word) (j : Fin 15) : Word :=
  let t := subWord (rotWord w)
  ⟨t.b0 ^^^ rcon j, t.b1, t.b2, t.b3⟩

/-- The schedule's word `i` from the words before it, `4 <= i <= 43` (R121, R126). -/
def scheduleWord (W : Table) (i : Nat) (hlo : 4 ≤ i) (hhi : i < 44) : Word :=
  if i % 4 = 0 then W[i - 4].xor (temp W[i - 1] ⟨i / 4, by omega⟩)
  else W[i - 4].xor W[i - 1]

/-- One turn of the loop of `Expand`: write word `i` (R121). -/
def expandStep (W : Table) (i : Nat) : Table :=
  if h : 4 ≤ i ∧ i < 44 then W.set i (scheduleWord W i h.1 h.2) h.2 else W

/-- `Expand(key)`: words 0 to 3 from the key, then words 4 to 43 in order (R121). The table it starts from is
overwritten in every word. -/
def expand (key : Block) : Table :=
  (List.range' 4 40).foldl expandStep (loadKeyWords (Vector.replicate 44 Word.zero) key)

/-- The effect of KS_LOAD: take the command, write words 0 to 3, clear `KEY_VALID`, start at word 4 (R125). -/
def startExpansion (key : Block) (s : State) : State :=
  ((((s.setCmd none).setTable (loadKeyWords s.W key)).setKeyValid false).setKi 4).setOp .keyExp

/-- The key of a LOAD_KEY of 16 bytes that is held on the CMD port of an idle engine: the operand of KS_LOAD.
DEDUCED, log entry 13. -/
def heldKey (s : State) : Option Block :=
  match s.op, s.cmd with
  | .idle, some bytes =>
    match decodeMessage bytes with
    | .ok (.loadKey data) => blockOf data
    | _ => none
  | _, _ => none

/-- LOAD_KEY, its accept transition (R120, R125, R201). While the engine is busy the command stays held and nothing
happens (R77). DEDUCED, log entry 12. -/
def execLoadKey (data : List Byte) (s : State) : Host.Outcome State Fault Refusal :=
  if s.busy then .next s
  else
    match blockOf data with
    | none => .next (s.raiseError .invalidKeyLength)
    | some key => .next (startExpansion key s)

/-- KS_LOAD (R125): performed inside the accept of a LOAD_KEY whose `LEN` is 16, on the held command's payload. -/
def execKsLoad (s : State) : Host.Outcome State Fault Refusal :=
  match heldKey s with
  | some key => .next (startExpansion key s)
  | none => .fault .microOpNotEnabled

/-- KS_WORD (R126): enabled when `OP = KEYEXP` and `KI <= 43`; write `W[KI]`, then `KI <- KI + 1`. -/
def execKsWord (s : State) : Host.Outcome State Fault Refusal :=
  if h : s.op = .keyExp ∧ s.ki.toNat < 44 then
    if hlo : 4 ≤ s.ki.toNat then
      .next ((s.setTable (s.W.set s.ki.toNat (scheduleWord s.W s.ki.toNat hlo h.2) h.2)).setKi (s.ki + 1))
    else .fault .wordOutOfRange
  else .fault .microOpNotEnabled

/-- KS_DONE (R127): enabled when `OP = KEYEXP` and `KI = 44`; the table is valid, the engine idle, the response OK. -/
def execKsDone (s : State) : Host.Outcome State Fault Refusal :=
  if s.op = .keyExp ∧ s.ki = 44 then .next (((s.setKeyValid true).setOp .idle).respond .ok [])
  else .fault .microOpNotEnabled

end Sys2Proof.Machine
end

