-- ==== Sys2Proof/Machine/Dispatch.lean ====
section
/-!
DEFINITION. One arm per instruction: each is one call of its meaning.
-/

namespace Sys2Proof.Machine

def exec (i : Instr) (s : State) : Host.Outcome State Fault Refusal :=
  match i with
  | .loadKey data => Sys2Proof.Machine.execLoadKey data s
  | .encrypt data => Sys2Proof.Machine.execEncrypt data s
  | .decrypt data => Sys2Proof.Machine.execDecrypt data s
  | .ksLoad => Sys2Proof.Machine.execKsLoad s
  | .ksWord => Sys2Proof.Machine.execKsWord s
  | .ksDone => Sys2Proof.Machine.execKsDone s
  | .loadState => Sys2Proof.Machine.execLoadState s
  | .addRoundKey => Sys2Proof.Machine.execAddRoundKey s
  | .subBytes => Sys2Proof.Machine.execSubBytes s
  | .shiftRows => Sys2Proof.Machine.execShiftRows s
  | .mixColumns => Sys2Proof.Machine.execMixColumns s
  | .invSubBytes => Sys2Proof.Machine.execInvSubBytes s
  | .invShiftRows => Sys2Proof.Machine.execInvShiftRows s
  | .invMixColumns => Sys2Proof.Machine.execInvMixColumns s
  | .storeState => Sys2Proof.Machine.execStoreState s

end Sys2Proof.Machine
end

