-- ==== Sys2Proof/Machine/Sequencer.lean ====
section
/-!
DEFINITION. The sequencer (42_cipher_datapath.md R176 to R178): which instruction the engine performs next, and where
the position goes after a micro-operation; and whose turn it is, the host's or the engine's (R184).
-/

namespace Sys2Proof.Machine

/-- Next `(RND, UOP)` during ENCRYPT, the table of R176; none where the table has no row. -/
def nextEncrypt (r u : BitVec 4) : Option (BitVec 4 × BitVec 4) :=
  if u = codeAddRoundKey then
    if r ≤ 9 then some (r + 1, codeSubBytes) else if r = 10 then some (10, codeStoreState) else none
  else if u = codeSubBytes then
    if 1 ≤ r ∧ r ≤ 10 then some (r, codeShiftRows) else none
  else if u = codeShiftRows then
    if 1 ≤ r ∧ r ≤ 9 then some (r, codeMixColumns) else if r = 10 then some (10, codeAddRoundKey) else none
  else if u = codeMixColumns then
    if 1 ≤ r ∧ r ≤ 9 then some (r, codeAddRoundKey) else none
  else none

/-- Next `(RND, UOP)` during DECRYPT, the table of R177; none where the table has no row. -/
def nextDecrypt (r u : BitVec 4) : Option (BitVec 4 × BitVec 4) :=
  if u = codeAddRoundKey then
    if r = 10 then some (10, codeInvShiftRows)
    else if 1 ≤ r ∧ r ≤ 9 then some (r, codeInvMixColumns)
    else if r = 0 then some (0, codeStoreState) else none
  else if u = codeInvMixColumns then
    if 1 ≤ r ∧ r ≤ 9 then some (r, codeInvShiftRows) else none
  else if u = codeInvShiftRows then
    if 1 ≤ r ∧ r ≤ 10 then some (r, codeInvSubBytes) else none
  else if u = codeInvSubBytes then
    if 1 ≤ r ∧ r ≤ 10 then some (r - 1, codeAddRoundKey) else none
  else none

/-- `upc <- next(OP, RND, UOP)`, with the position before the micro-operation, written into the state after it. -/
def moveTo (p : Option (BitVec 4 × BitVec 4)) (t : State) : Host.Outcome State Fault Refusal :=
  match p with
  | some (r, u) => .next (t.setPosition r u)
  | none => .fault .positionOffTheWalk

/-- What the engine step does after its micro-operation (R178): `s` is the state before it, `t` the state after. The
position moves unless the micro-operation was STORE_STATE; it does not move in a key expansion or in an accept. -/
def advance (s t : State) : Host.Outcome State Fault Refusal :=
  match s.op with
  | .idle => .next t
  | .keyExp => .next t
  | .enc => if s.uop = codeStoreState then .next t else moveTo (nextEncrypt s.rnd s.uop) t
  | .dec => if s.uop = codeStoreState then .next t else moveTo (nextDecrypt s.rnd s.uop) t

/-- What the engine finds to do. -/
inductive Fetched where
  /-- perform an instruction -/
  | run (i : Instr)
  /-- answer a command with a reserved `OPC` (R97) -/
  | illegal
  /-- idle, and no command offered: no engine transition is enabled (R178) -/
  | waiting
  /-- a code in `UOP` that is unused (R100) -/
  | unusedCode
  /-- bytes on the CMD port that are not a whole message -/
  | notAMessage
  deriving DecidableEq, Repr

/-- What a decoded message or code asks for. -/
def fetched : Except DecodeError Instr → Fetched
  | .ok i => .run i
  | .error (.reservedOpcode _) => .illegal
  | .error (.unusedMicroOp _) => .unusedCode
  | .error .notAMessage => .notAMessage

/-- What the engine does next (R178): idle, the command held on the CMD port, if any (R77); in key expansion, KS_WORD
while `KI <= 43` and then KS_DONE; in ENC and DEC, the micro-operation whose code `UOP` holds. -/
def fetch (s : State) : Fetched :=
  match s.op with
  | .idle =>
    match s.cmd with
    | none => .waiting
    | some bytes => fetched (decode (.message bytes))
  | .keyExp => if s.ki ≤ 43 then .run .ksWord else .run .ksDone
  | .enc => fetched (decode (.code s.uop))
  | .dec => fetched (decode (.code s.uop))

/-- Whose turn it is, and the state it starts from or leaves. -/
inductive Turn where
  /-- the host moved; the state after its action -/
  | host (t : State)
  /-- the engine moves, from this state -/
  | engine (s : State)
  deriving DecidableEq, Repr

/-- The host's next action, if it can be done now (R184). An offer waits while a command is held on the port (R36: at
most one), and a read of a response waits until there is an unread one; while the host waits, or has nothing to do, the
engine moves. Log entry 3. -/
def hostTurn (s : State) : Turn :=
  match s.plan with
  | [] => .engine s
  | .engineTurn :: rest => .engine (s.setPlan rest)
  | .readStatus :: rest => .host ((s.setPlan rest).readStatus)
  | .assertReset :: rest => .host ((s.setPlan rest).resetEvent)
  | .readResponse :: rest =>
    if s.rspRead < s.rsp.length then .host ((s.setPlan rest).readResponse) else .engine s
  | .offer bytes :: rest =>
    match s.cmd with
    | none => .host ((s.setPlan rest).setCmd (some bytes))
    | some _ => .engine s

/-- The engine's state made ready so that its next transition performs the micro-operation of a code: for KS_LOAD and
LOAD_STATE, a held command whose accept performs it, with a payload of zeros; for the others, a position at which the
sequencer performs it. For no code of R100 the state is ready for ENC with that code. -/
def readyMicroOp (s : State) (c : BitVec 4) : State :=
  match decodeMicroOp c with
  | .ok .ksLoad => (s.setOp .idle).setCmd (some (encodeMessage 0x01 (List.replicate 16 0)))
  | .ok .ksWord => (s.setOp .keyExp).setKi 4
  | .ok .ksDone => (s.setOp .keyExp).setKi 44
  | .ok .loadState =>
    ((s.setOp .idle).setKeyValid true).setCmd (some (encodeMessage 0x02 (List.replicate 16 0)))
  | .ok .addRoundKey => (s.setOp .enc).setPosition 0 c
  | .ok .subBytes => (s.setOp .enc).setPosition 1 c
  | .ok .shiftRows => (s.setOp .enc).setPosition 1 c
  | .ok .mixColumns => (s.setOp .enc).setPosition 1 c
  | .ok .invSubBytes => (s.setOp .dec).setPosition 1 c
  | .ok .invShiftRows => (s.setOp .dec).setPosition 1 c
  | .ok .invMixColumns => (s.setOp .dec).setPosition 1 c
  | .ok .storeState => (s.setOp .enc).setPosition 10 c
  | .ok (.loadKey _) => s
  | .ok (.encrypt _) => s
  | .ok (.decrypt _) => s
  | .error _ => (s.setOp .enc).setPosition 0 c

/-- The engine's state made ready so that its next transition performs what is written: a message is held on the CMD
port of the idle engine; a code is where the sequencer takes it from. -/
def ready (s : State) : Encoded → State
  | .message bytes => (s.setOp .idle).setCmd (some bytes)
  | .code c => readyMicroOp s c

/-- The host lets the engine move first, before the rest of its plan. -/
def engineFirst (s : State) : State :=
  match s.plan with
  | [] => s
  | p => s.setPlan (.engineTurn :: p)

end Sys2Proof.Machine
end

