-- ==== Sys2Proof/Machine/Engine.lean ====
section
/-!
DEFINITION. One transition of the engine (42_cipher_datapath.md R178).
-/

namespace Sys2Proof.Machine

/-- Perform what the engine finds to do, then move the sequencer on (R178). A command with a reserved `OPC` is answered
with IllegalCommand and changes no engine state (30_encoding.md R97, 60_exceptions.md R204). With nothing to do the
engine waits and the state stays (log entry 3). -/
def engineStep (s : State) : Host.Outcome State Fault Refusal :=
  match fetch s with
  | .run i =>
    match exec i s with
    | .next t => advance s t
    | .fault r => .fault r
    | .refused r => .refused r
  | .illegal => .next (s.raiseError .illegalCommand)
  | .waiting => .next s
  | .unusedCode => .fault .unusedMicroOp
  | .notAMessage => .refused .notACommandMessage

/-- `s` made ready so that its next step performs what the opcode table's bits `w` stand for. -/
def placeTableWord (s : State) (nbits w : Nat) : State :=
  match tableEncoded nbits w with
  | some e => engineFirst (ready s e)
  | none => s

end Sys2Proof.Machine
end

