-- ==== Sys2Proof/Machine/Step.lean ====
section
/-!
DEFINITION. One transition of the machine: the host's, or the engine's (42_cipher_datapath.md R178, R184).
-/

namespace Sys2Proof.Machine

/-- One step of the machine: the host's next action if it can be done now, else one transition of the engine. -/
def step (s : State) : Host.Outcome State Fault Refusal :=
  match hostTurn s with
  | .host t => .next t
  | .engine t => engineStep t

/-- `s` with the instruction whose bits are `w`, numbered as the opcode table numbers them, placed so that the very next
step performs it: a command message held on the CMD port of an idle engine, or a micro-operation at the sequencer's
position; and the engine moves before the rest of the host's plan. This stands for the host's placing of a program
(70_reset_and_hazards.md R239). Log entry 3. -/
def State.withFetchWord (s : State) (nbits w : Nat) : State := placeTableWord s nbits w

end Sys2Proof.Machine
end

