-- ==== Sys2Proof/Safety.lean ====
section
/-!
DEFINITION. What counts as a safe run: the invariant of reachable states (10_state.md R39), a step that does not stop, and
when two states are the same to the host (10_state.md R35, 70_reset_and_hazards.md R230).
-/

namespace Sys2Proof.Machine

/-- The machine goes on: its step answers a next state. -/
def Runs (s : State) : Prop := ∃ t, step s = .next t

/-- The positions `(RND, UOP)` of an encryption (R176). -/
def onEncryptWalk (r u : BitVec 4) : Prop :=
  (u = codeAddRoundKey ∧ r ≤ 10) ∨ ((u = codeSubBytes ∨ u = codeShiftRows) ∧ 1 ≤ r ∧ r ≤ 10) ∨
    (u = codeMixColumns ∧ 1 ≤ r ∧ r ≤ 9) ∨ (u = codeStoreState ∧ r = 10)

/-- The positions `(RND, UOP)` of a decryption (R177). -/
def onDecryptWalk (r u : BitVec 4) : Prop :=
  (u = codeAddRoundKey ∧ r ≤ 10) ∨ ((u = codeInvShiftRows ∨ u = codeInvSubBytes) ∧ 1 ≤ r ∧ r ≤ 10) ∨
    (u = codeInvMixColumns ∧ 1 ≤ r ∧ r ≤ 9) ∨ (u = codeStoreState ∧ r = 0)

/-- Words 0 to `n - 1` of the table are those of the expansion of the key in its words 0 to 3. -/
def expandedTo (W : Table) (n : Nat) : Prop :=
  ∀ i (h : i < 44), i < n → W[i] = (expand (keyOfTable W))[i]

/-- A host action offers nothing but whole command messages (R90, R91). -/
def HostAction.offersMessage : HostAction → Prop
  | .offer bytes => isMessage bytes = true
  | .readResponse => True
  | .readStatus => True
  | .assertReset => True
  | .engineTurn => True

/-- The invariant of reachable states (R39): (I1) a valid table is a whole expansion; (I2) no valid key during key
expansion; (I3) `4 <= KI <= 44` there, with the words below `KI` written; (I4) ENC and DEC run with a valid key on their
walks; what the CMD port holds and the host will offer is a whole message (R90); every response is of a legal form
(R92), and the host has read no more than were emitted. -/
structure Inv (s : State) : Prop where
  /-- (I1) -/
  tableComplete : s.keyValid = true → expandedTo s.W 44
  /-- (I2) -/
  invalidWhileExpanding : s.op = .keyExp → s.keyValid = false
  /-- (I3) -/
  expanding : s.op = .keyExp → 4 ≤ s.ki ∧ s.ki ≤ 44 ∧ expandedTo s.W s.ki.toNat
  /-- (I4), ENC -/
  encrypting : s.op = .enc → s.keyValid = true ∧ onEncryptWalk s.rnd s.uop
  /-- (I4), DEC -/
  decrypting : s.op = .dec → s.keyValid = true ∧ onDecryptWalk s.rnd s.uop
  /-- the held command is a whole message (R90) -/
  heldIsMessage : ∀ bytes, s.cmd = some bytes → isMessage bytes = true
  /-- the host offers whole messages (R90) -/
  planOffersMessages : ∀ a ∈ s.plan, a.offersMessage
  /-- every response is of a legal form (R92) -/
  responsesLegal : ∀ r ∈ s.rsp, r.legal = true
  /-- no response is read before it is emitted (R36) -/
  readEmitted : s.rspRead ≤ s.rsp.length

/-- Two states that differ only in what no rule reads before it is written (R35, R39 (I5), R230): the table while no key
is valid and the engine is idle, its words from `KI` on in a key expansion, `S`, `RND` and `UOP` outside ENC and DEC, and
`KI` outside a key expansion. -/
structure SameToHost (s t : State) : Prop where
  /-- the operation in progress -/
  op : s.op = t.op
  /-- the flag -/
  keyValid : s.keyValid = t.keyValid
  /-- the CMD port -/
  cmd : s.cmd = t.cmd
  /-- the RSP port -/
  rsp : s.rsp = t.rsp
  /-- the responses read -/
  rspRead : s.rspRead = t.rspRead
  /-- the STATUS values read -/
  statusReads : s.statusReads = t.statusReads
  /-- what the host will do -/
  plan : s.plan = t.plan
  /-- the free values drawn -/
  draws : s.draws = t.draws
  /-- a table that can be read -/
  table : s.keyValid = true ∨ s.op = .enc ∨ s.op = .dec → s.W = t.W
  /-- a key expansion: the index, and the words below it -/
  expansion : s.op = .keyExp → s.ki = t.ki ∧ ∀ i (h : i < 44), i < s.ki.toNat → s.W[i] = t.W[i]
  /-- a block operation: the matrix and the position -/
  block : s.op = .enc ∨ s.op = .dec → s.S = t.S ∧ s.rnd = t.rnd ∧ s.uop = t.uop

end Sys2Proof.Machine
end

