-- ==== Sys2Proof/Certificates/Slice0/Obligations.lean ====
section
/-!
DEFINITION. The statements for the provers. An equation `exec i s = .next …` with a record update says the result, that the
instruction completes, and its frame: every field not named is unchanged.
-/

open Sys2Proof Sys2Proof.Machine

/-! ## Encoding -/

/-- Decoding what a well-formed instruction encodes to gives it back, and whatever decodes is the encoding of the
well-formed instruction it decodes to: no bit of an encoding is dropped and no two encodings mean one instruction. -/
def Obligations.DecodeAndEncodeAgree : Prop :=
  (∀ i : Instr, i.wellFormed = true → decode (encode i) = .ok i) ∧
  (∀ (e : Encoded) (i : Instr), decode e = .ok i → i.wellFormed = true ∧ encode i = e)

/-- Words written out from the spec's encodings decode to the instructions they stand for: headers of R93 with payloads,
codes of R100. -/
def Obligations.SampleWordsDecode : Prop :=
  decode (.message [0x01, 0x02, 0xAB, 0xCD]) = .ok (.loadKey [0xAB, 0xCD]) ∧
  decode (.message [0x02, 0x01, 0x7F]) = .ok (.encrypt [0x7F]) ∧
  decode (.message [0x03, 0x00]) = .ok (.decrypt []) ∧
  decode (.code 0b0001) = .ok .ksWord ∧
  decode (.code 0b0100) = .ok .addRoundKey ∧
  decode (.code 0b1010) = .ok .invMixColumns ∧
  decode (.code 0b1011) = .ok .storeState

/-- A whole message with a reserved operation code, 0x00 or 0x04 to 0xFF, is rejected by that name, whatever its length
and payload (R97); so are the unused micro-operation codes 0xC to 0xF (R100). -/
def Obligations.ReservedEncodingsRejected : Prop :=
  (∀ (opc : Byte) (data : List Byte), data.length ≤ 255 → opc ≠ 0x01 → opc ≠ 0x02 → opc ≠ 0x03 →
    decode (.message (encodeMessage opc data)) = .error (.reservedOpcode opc)) ∧
  (∀ c : BitVec 4, 0xC ≤ c → decode (.code c) = .error (.unusedMicroOp c))

/-- The status codes and the serialised form of a response: `STAT, RLEN`, then the payload (R92, R200). -/
def Obligations.ResponseBytesAndStatusCodes : Prop :=
  Status.code .ok = 0x00 ∧ Status.code (.error .invalidKeyLength) = 0x01 ∧
  Status.code (.error .invalidBlockLength) = 0x02 ∧ Status.code (.error .uninitializedKey) = 0x03 ∧
  Status.code (.error .illegalCommand) = 0x04 ∧
  (∀ e : ErrorKind, (Response.mk (.error e) []).bytes = [e.code, 0x00]) ∧
  (Response.mk .ok []).bytes = [0x00, 0x00] ∧
  (∀ b : Block, (Response.mk .ok b.toList).bytes = [0x00, 0x10] ++ b.toList)

/-! ## Layout and arithmetic -/

/-- The two conversions between a 128-bit integer and sixteen bytes are inverse (R62), byte `i` being bits
`[127-8i : 120-8i]` (R61), and so are the two between a block and the matrix, `M[r][c] = b[r + 4c]` (R63). -/
def Obligations.BlockFormsAreInverse : Prop :=
  (∀ x : BitVec 128, bytesToInt (intToBytes x) = x) ∧
  (∀ b : Block, intToBytes (bytesToInt b) = b) ∧
  (∀ (x : BitVec 128) (i : Nat) (h : i < 16), (intToBytes x)[i] = x.extractLsb' (120 - 8 * i) 8) ∧
  (∀ b : Block, fromMatrix (toMatrix b) = b) ∧
  (∀ M : StateMatrix, toMatrix (fromMatrix M) = M) ∧
  (∀ (b : Block) (i : Nat) (h : i < 16),
    (toMatrix b).get ⟨i % 4, by omega⟩ ⟨i / 4, by omega⟩ = b[i])

/-- `RoundKey(r)` has byte `k` of word `W[4r + c]` at row `k`, column `c`, and is `ToMatrix` of the sixteen bytes of its
four words in order (R66). -/
def Obligations.RoundKeyFetch : Prop :=
  ∀ (W : Table) (r : Fin 11),
    (∀ k c : Fin 4, (roundKey W r).get k c = (W[4 * r.val + c.val]).byte k) ∧
    roundKey W r = toMatrix (Vector.ofFn fun i : Fin 16 =>
      (W[4 * r.val + i.val / 4]).byte ⟨i.val % 4, by omega⟩)

/-- `XTIME`: the shifted byte, XORed with 0x1B exactly when bit 7 was set; it is a bijection (R140). -/
def Obligations.XtimeDoubles : Prop :=
  (∀ b : Byte, xtime b = (b <<< 1) ^^^ (if b.getLsbD 7 then 0x1B else 0x00)) ∧
  (∀ a b : Byte, xtime a = xtime b → a = b) ∧ (∀ b : Byte, ∃ a : Byte, xtime a = b)

/-- The seven constant multiplications as sums of doublings (R143). -/
def Obligations.GmulByTheSevenConstants : Prop :=
  ∀ b : Byte,
    gmul 1 b = b ∧ gmul 2 b = xtime b ∧ gmul 3 b = xtime b ^^^ b ∧
    gmul 9 b = xtime (xtime (xtime b)) ^^^ b ∧
    gmul 11 b = xtime (xtime (xtime b)) ^^^ xtime b ^^^ b ∧
    gmul 13 b = xtime (xtime (xtime b)) ^^^ xtime (xtime b) ^^^ b ∧
    gmul 14 b = xtime (xtime (xtime b)) ^^^ xtime (xtime b) ^^^ xtime b

/-- `GMUL(k, b)` is the sum of the `j`-fold doublings of `b` over the bits `j` of `k` that are 1; it is linear in `b`, for
every `k`, and gives zero on zero (R142). -/
def Obligations.GmulIsTheLinearSumOfDoublings : Prop :=
  (∀ k b : Byte, gmul k b =
    ((List.range 8).map fun j => if k.getLsbD j then xtime^[j] b else 0x00).foldl (· ^^^ ·) 0x00) ∧
  (∀ k a b : Byte, gmul k (a ^^^ b) = gmul k a ^^^ gmul k b) ∧ (∀ k : Byte, gmul k 0x00 = 0x00)

/-- The two substitution tables are inverse permutations, and SBOX has no fixed point and no byte it complements
(R30, R31). -/
def Obligations.SubstitutionTablesAreInverse : Prop :=
  ∀ x : Byte, invSbox (sbox x) = x ∧ sbox (invSbox x) = x ∧ sbox x ≠ x ∧ sbox x ≠ x ^^^ 0xFF

/-- SBOX is the construction the spec gives: bit `i` of `SBOX[x]` is the sum of bits `i`, `i+4`, `i+5`, `i+6`, `i+7`
(mod 8) of the multiplicative inverse of `x` (zero for zero) and bit `i` of 0x63 (R30). -/
def Obligations.SboxIsTheAffineMapOfTheInverse : Prop :=
  ∀ x : Byte, ∃ y : Byte, (x = 0 → y = 0) ∧ (x ≠ 0 → gmul x y = 0x01) ∧
    ∀ i < 8, (sbox x).getLsbD i =
      (y.getLsbD i ^^ y.getLsbD ((i + 4) % 8) ^^ y.getLsbD ((i + 5) % 8) ^^ y.getLsbD ((i + 6) % 8) ^^
        y.getLsbD ((i + 7) % 8) ^^ (0x63 : Byte).getLsbD i)

/-- RCON's entries 1 to 10 are the successive doublings of 0x01 (R32). -/
def Obligations.RconEntriesAreDoublings : Prop :=
  rcon 1 = 0x01 ∧ ∀ j : Fin 15, 1 ≤ j.val → j.val ≤ 9 → ∀ k : Fin 15, k.val = j.val + 1 → rcon k = xtime (rcon j)

/-! ## Key schedule -/

/-- The word helpers: ROT_WORD as a permutation of bytes and as a rotation of the 32-bit number (R122), SUB_WORD byte by
byte (R123), TEMP as the sum with the round constant in byte 0 only (R124). That SUB_WORD and ROT_WORD commute is an
inference the spec marks as its own (R123, `[derived: from rule R122 and this rule]`). -/
def Obligations.WordHelpers : Prop :=
  (∀ b0 b1 b2 b3 : Byte, rotWord ⟨b0, b1, b2, b3⟩ = ⟨b1, b2, b3, b0⟩) ∧
  (∀ w : Word, (rotWord w).toBits = (w.toBits <<< 8) ^^^ (w.toBits >>> 24)) ∧
  (∀ w : Word, rotWord (rotWord (rotWord (rotWord w))) = w) ∧
  (∀ (w : Word) (k : Fin 4), (subWord w).byte k = sbox (w.byte k)) ∧
  (∀ w : Word, subWord (rotWord w) = rotWord (subWord w)) ∧
  (∀ (w : Word) (j : Fin 15),
    (temp w j).toBits = (subWord (rotWord w)).toBits ^^^ ((rcon j).setWidth 32 <<< 24))

/-- `Expand(key)`: words 0 to 3 are the key's bytes in order, and every later word is its word four before XOR the word
before, or XOR TEMP of the word before at every fourth index (R121). -/
def Obligations.ExpandFollowsTheRecurrence : Prop :=
  ∀ key : Block,
    (∀ (c : Nat) (h : c < 4), (expand key)[c] = ⟨key[4 * c], key[4 * c + 1], key[4 * c + 2], key[4 * c + 3]⟩) ∧
    (∀ (i : Nat) (_ : 4 ≤ i) (h : i < 44), i % 4 = 0 →
      (expand key)[i] = ((expand key)[i - 4]).xor (temp (expand key)[i - 1] ⟨i / 4, by omega⟩)) ∧
    (∀ (i : Nat) (_ : 4 ≤ i) (h : i < 44), i % 4 ≠ 0 →
      (expand key)[i] = ((expand key)[i - 4]).xor (expand key)[i - 1])

/-- The expansion depends on the key alone: started from any table, the loop ends in `Expand(key)` (R128). -/
def Obligations.ExpandIgnoresTheOldTable : Prop :=
  ∀ (W : Table) (key : Block), (List.range' 4 40).foldl expandStep (loadKeyWords W key) = expand key

/-- The key can be read back from the table, so `Expand` is injective; round key 0 is the key in its own layout. -/
def Obligations.ExpandKeepsTheKey : Prop :=
  (∀ key : Block, keyOfTable (expand key) = key) ∧
  (∀ k l : Block, expand k = expand l → k = l) ∧
  (∀ key : Block, roundKey (expand key) 0 = toMatrix key)

/-- The accept of LOAD_KEY on an idle engine (R125): a payload of 16 bytes is copied into words 0 to 3, `KEY_VALID` is
cleared, `KI` is 4, `OP` is KEYEXP and the command leaves the port; any other length is answered with
InvalidKeyLength and no data, and no engine state is written (R201). -/
def Obligations.LoadKeyAccept : Prop :=
  ∀ (s : State) (data : List Byte), s.op = .idle →
    (∀ h : data.length = 16, ∃ W' : Table,
      exec (.loadKey data) s =
        .next { s with W := W', keyValid := false, ki := 4, op := .keyExp, cmd := none } ∧
      (∀ (c : Nat) (_ : c < 4), W'[c] = ⟨data[4 * c], data[4 * c + 1], data[4 * c + 2], data[4 * c + 3]⟩) ∧
      (∀ (i : Nat) (_ : i < 44), 4 ≤ i → W'[i] = s.W[i])) ∧
    (data.length ≠ 16 →
      exec (.loadKey data) s =
        .next { s with cmd := none, rsp := s.rsp ++ [⟨.error .invalidKeyLength, []⟩] })

/-- KS_LOAD inside the accept of a held LOAD_KEY of 16 bytes (R125): words 0 to 3 from the payload, `KEY_VALID` cleared,
`KI` 4, `OP` KEYEXP; it is the whole of that accept. That KS_LOAD as an instruction of its own takes its operand from the
command held on the CMD port, and takes that command, is the model's choice (DEDUCED, log entry 13). -/
def Obligations.KsLoadOnAHeldLoadKey : Prop :=
  ∀ (s : State) (data : List Byte), s.op = .idle → s.cmd = some (encodeMessage 0x01 data) →
    ∀ h : data.length = 16,
      exec .ksLoad s = exec (.loadKey data) s ∧
      ∃ W' : Table,
        exec .ksLoad s = .next { s with W := W', keyValid := false, ki := 4, op := .keyExp, cmd := none } ∧
        (∀ (c : Nat) (_ : c < 4), W'[c] = ⟨data[4 * c], data[4 * c + 1], data[4 * c + 2], data[4 * c + 3]⟩) ∧
        (∀ (i : Nat) (_ : i < 44), 4 ≤ i → W'[i] = s.W[i])

/-- KS_WORD (R126): in a key expansion with `4 <= KI <= 43` it writes the next word, read from the table before the
step, and adds 1 to `KI`; every other word and all else stay. -/
def Obligations.KsWordWritesTheNextWord : Prop :=
  ∀ (s : State) (i : Nat) (_ : 4 ≤ i) (hi : i < 44), s.op = .keyExp → s.ki = BitVec.ofNat 6 i →
    exec .ksWord s =
      .next { s with
        W := s.W.set i
          (if i % 4 = 0 then (s.W[i - 4]).xor (temp s.W[i - 1] ⟨i / 4, by omega⟩)
            else (s.W[i - 4]).xor s.W[i - 1]) hi
        ki := BitVec.ofNat 6 (i + 1) }

/-- KS_DONE (R127): in a key expansion with `KI = 44` it sets `KEY_VALID`, makes the engine idle and answers OK with no
data. That `S`, `RND`, `UOP` and `KI` of the now idle engine are as they were is the model's choice (DEDUCED, log entry 7:
the spec calls them unspecified while idle). -/
def Obligations.KsDoneFinishes : Prop :=
  ∀ s : State, s.op = .keyExp → s.ki = 44 →
    exec .ksDone s = .next { s with keyValid := true, op := .idle, rsp := s.rsp ++ [⟨.ok, []⟩] }

/-! ## Elementary transforms -/

/-- ADD_ROUND_KEY (R145): for every `RND` from 0 to 10, byte `(r, c)` becomes its XOR with byte `r` of word
`W[4·RND + c]`; nothing but `S` changes. -/
def Obligations.AddRoundKeyXorsTheRoundKey : Prop :=
  ∀ (s : State) (n : Nat) (_ : n ≤ 10), s.rnd = BitVec.ofNat 4 n →
    ∃ S' : StateMatrix, exec .addRoundKey s = .next { s with S := S' } ∧
      ∀ r c : Fin 4, S'.get r c = s.S.get r c ^^^ (s.W[4 * n + c.val]).byte r

/-- SUB_BYTES and INV_SUB_BYTES (R146, R147): every byte through its table, none moved; nothing but `S` changes. -/
def Obligations.SubstitutionActsOnEveryByte : Prop :=
  ∀ s : State,
    (∃ S' : StateMatrix, exec .subBytes s = .next { s with S := S' } ∧
      ∀ r c : Fin 4, S'.get r c = sbox (s.S.get r c)) ∧
    (∃ S' : StateMatrix, exec .invSubBytes s = .next { s with S := S' } ∧
      ∀ r c : Fin 4, S'.get r c = invSbox (s.S.get r c))

/-- SHIFT_ROWS and INV_SHIFT_ROWS (R148, R149): row `r` rotated left, or right, by `r`, in the matrix and in block
order; nothing but `S` changes. -/
def Obligations.RowRotations : Prop :=
  ∀ s : State,
    (∃ S' : StateMatrix, exec .shiftRows s = .next { s with S := S' } ∧
      (∀ r c d : Fin 4, d.val = (c.val + r.val) % 4 → S'.get r c = s.S.get r d) ∧
      (∀ (i : Nat) (h : i < 16), (fromMatrix S')[i] = (fromMatrix s.S)[(i + 4 * (i % 4)) % 16])) ∧
    (∃ S' : StateMatrix, exec .invShiftRows s = .next { s with S := S' } ∧
      (∀ r c d : Fin 4, d.val = (c.val + 4 - r.val) % 4 → S'.get r c = s.S.get r d) ∧
      (∀ (i : Nat) (h : i < 16), (fromMatrix S')[i] = (fromMatrix s.S)[(i + 12 * (i % 4)) % 16]))

/-- MIX_COLUMNS and INV_MIX_COLUMNS (R150, R151): byte `(r, c)` becomes the sum over `k` of the matrix entry `(r, k)` times
byte `(k, c)`; nothing but `S` changes. Row `r` of a matrix is written as a word whose byte `k` is the entry `(r, k)`: the
spec's decimal 14, 11, 13, 9 are the bytes 0E, 0B, 0D, 09. -/
def Obligations.ColumnMixings : Prop :=
  let forwardRow (r : Fin 4) : Word :=
    Word.ofBits (match r with | 0 => 0x02030101 | 1 => 0x01020301 | 2 => 0x01010203 | 3 => 0x03010102)
  let inverseRow (r : Fin 4) : Word :=
    Word.ofBits (match r with | 0 => 0x0E0B0D09 | 1 => 0x090E0B0D | 2 => 0x0D090E0B | 3 => 0x0B0D090E)
  let times (row column : Word) : Byte :=
    gmul row.b0 column.b0 ^^^ gmul row.b1 column.b1 ^^^ gmul row.b2 column.b2 ^^^ gmul row.b3 column.b3
  ∀ s : State,
    (∃ S' : StateMatrix, exec .mixColumns s = .next { s with S := S' } ∧
      ∀ r c : Fin 4, S'.get r c = times (forwardRow r) (s.S.column c)) ∧
    (∃ S' : StateMatrix, exec .invMixColumns s = .next { s with S := S' } ∧
      ∀ r c : Fin 4, S'.get r c = times (inverseRow r) (s.S.column c))

/-- The exact inverse pairs, for every state and round key (R152). -/
def Obligations.TransformInversePairs : Prop :=
  ∀ S K : StateMatrix,
    addRoundKey (addRoundKey S K) K = S ∧
    invSubBytes (subBytes S) = S ∧ subBytes (invSubBytes S) = S ∧
    invShiftRows (shiftRows S) = S ∧ shiftRows (invShiftRows S) = S ∧
    invMixColumns (mixColumns S) = S ∧ mixColumns (invMixColumns S) = S

/-! ## Cipher datapath -/

/-- The accept of ENCRYPT and DECRYPT on an idle engine (R174, R205): a wrong length is reported first, whatever the
key flag; then a missing key; else byte `i` of the payload goes to `S[i mod 4][i / 4]` and the walk starts at round 0, or
10. A failed command writes no engine state. -/
def Obligations.BlockCommandAccept : Prop :=
  ∀ (s : State) (data : List Byte), s.op = .idle →
    (data.length ≠ 16 →
      exec (.encrypt data) s =
        .next { s with cmd := none, rsp := s.rsp ++ [⟨.error .invalidBlockLength, []⟩] } ∧
      exec (.decrypt data) s =
        .next { s with cmd := none, rsp := s.rsp ++ [⟨.error .invalidBlockLength, []⟩] }) ∧
    (data.length = 16 → s.keyValid = false →
      exec (.encrypt data) s =
        .next { s with cmd := none, rsp := s.rsp ++ [⟨.error .uninitializedKey, []⟩] } ∧
      exec (.decrypt data) s =
        .next { s with cmd := none, rsp := s.rsp ++ [⟨.error .uninitializedKey, []⟩] }) ∧
    (∀ h : data.length = 16, s.keyValid = true → ∃ S' : StateMatrix,
      exec (.encrypt data) s =
        .next { s with S := S', op := .enc, rnd := 0, uop := codeAddRoundKey, cmd := none } ∧
      exec (.decrypt data) s =
        .next { s with S := S', op := .dec, rnd := 10, uop := codeAddRoundKey, cmd := none } ∧
      ∀ (i : Nat) (_ : i < 16), S'.get ⟨i % 4, by omega⟩ ⟨i / 4, by omega⟩ = data[i])

/-- LOAD_STATE inside the accept of a held ENCRYPT or DECRYPT of 16 bytes with a valid key (R174): it is the whole of
that accept. That LOAD_STATE as an instruction of its own takes its operand from the command held on the CMD port, and
takes that command, is the model's choice (DEDUCED, log entry 13). -/
def Obligations.LoadStateOnAHeldBlockCommand : Prop :=
  ∀ (s : State) (data : List Byte), s.op = .idle → s.keyValid = true → ∀ h : data.length = 16,
    ∃ S' : StateMatrix,
      (s.cmd = some (encodeMessage 0x02 data) →
        exec .loadState s =
          .next { s with S := S', op := .enc, rnd := 0, uop := codeAddRoundKey, cmd := none } ∧
        exec .loadState s = exec (.encrypt data) s) ∧
      (s.cmd = some (encodeMessage 0x03 data) →
        exec .loadState s =
          .next { s with S := S', op := .dec, rnd := 10, uop := codeAddRoundKey, cmd := none } ∧
        exec .loadState s = exec (.decrypt data) s) ∧
      ∀ (i : Nat) (_ : i < 16), S'.get ⟨i % 4, by omega⟩ ⟨i / 4, by omega⟩ = data[i]

/-- STORE_STATE (R175): in ENC or DEC with its code in `UOP`, it answers OK with `Q[i] = S[i mod 4][i / 4]` and makes the
engine idle; `S`, `W` and `KEY_VALID` stay. That `RND`, `UOP` and `KI` of the now idle engine are as they were is the
model's choice (DEDUCED, log entry 7: the spec calls them unspecified while idle). -/
def Obligations.StoreStateAnswersTheBlock : Prop :=
  ∀ s : State, s.op = .enc ∨ s.op = .dec → s.uop = codeStoreState →
    ∃ Q : Block,
      exec .storeState s = .next { s with op := .idle, rsp := s.rsp ++ [⟨.ok, Q.toList⟩] } ∧
      ∀ (i : Nat) (_ : i < 16), Q[i] = s.S.get ⟨i % 4, by omega⟩ ⟨i / 4, by omega⟩

/-- Decrypt undoes Encrypt and Encrypt undoes Decrypt, for every block and every table, complete or not. -/
def Obligations.CipherFunctionsAreInverse : Prop :=
  ∀ (b : Block) (W : Table), decrypt (encrypt b W) W = b ∧ encrypt (decrypt b W) W = b

/-! ## The step -/

/-- What the engine's turn does (R178). Idle with a held command that decodes, the step is its `exec`; in a key expansion
it is that of KS_WORD or KS_DONE; in ENC and DEC it is that of the micro-operation `UOP` names, and then, unless that was
STORE_STATE, the position moves on by the tables of R176 and R177. `u` is the state the engine starts from: `s` with
an engine turn at the head of its plan taken off, if there is one. -/
def Obligations.StepRunsTheDecodedInstruction : Prop :=
  ∀ s u : State, hostTurn s = .engine u →
    (s.plan = [] → u = s) ∧
    (∀ rest, s.plan = .engineTurn :: rest → u = { s with plan := rest }) ∧
    (∀ bytes i, u.op = .idle → u.cmd = some bytes → decode (.message bytes) = .ok i → step s = exec i u) ∧
    (u.op = .keyExp → u.ki ≤ 43 → step s = exec .ksWord u) ∧
    (u.op = .keyExp → 43 < u.ki → step s = exec .ksDone u) ∧
    (∀ i, u.op = .enc ∨ u.op = .dec → decode (.code u.uop) = .ok i →
      (∀ f, exec i u = .fault f → step s = .fault f) ∧
      (∀ f, exec i u = .refused f → step s = .refused f) ∧
      (∀ t, exec i u = .next t → u.uop = codeStoreState → step s = .next t) ∧
      (∀ t, exec i u = .next t → u.uop ≠ codeStoreState →
        ∀ p, p = (if u.op = .enc then nextEncrypt u.rnd u.uop else nextDecrypt u.rnd u.uop) →
          (∀ r k, p = some (r, k) → step s = .next { t with rnd := r, uop := k }) ∧
          (p = none → step s = .fault .positionOffTheWalk)))

/-- The next positions of an encryption, row by row of R176, and that the engine gets there; the positions the table leads
to from `(0, ADD_ROUND_KEY)` are 41, no two the same, and exactly those R176 lists. -/
def Obligations.EncryptWalkFollowsTheTable : Prop :=
  let pos (n : Nat) : Option (BitVec 4 × BitVec 4) :=
    (fun p : Option (BitVec 4 × BitVec 4) => p.bind fun q => nextEncrypt q.1 q.2)^[n] (some (0, codeAddRoundKey))
  ((∀ m n, m < 41 → n < 41 → pos m = pos n → m = n) ∧ pos 41 = none ∧
    ∀ r k, (∃ n, n < 41 ∧ pos n = some (r, k)) ↔
      (r = 0 ∧ k = codeAddRoundKey) ∨
      ((k = codeSubBytes ∨ k = codeShiftRows ∨ k = codeAddRoundKey) ∧ 1 ≤ r ∧ r ≤ 10) ∨
      (k = codeMixColumns ∧ 1 ≤ r ∧ r ≤ 9) ∨ (r = 10 ∧ k = codeStoreState)) ∧
  ∀ s : State, s.plan = [] → s.op = .enc →
    let goes (r k : BitVec 4) : Prop := ∃ t, step s = .next t ∧ t.op = .enc ∧ t.rnd = r ∧ t.uop = k
    (s.rnd = 0 → s.uop = codeAddRoundKey → goes 1 codeSubBytes) ∧
    (1 ≤ s.rnd → s.rnd ≤ 10 → s.uop = codeSubBytes → goes s.rnd codeShiftRows) ∧
    (1 ≤ s.rnd → s.rnd ≤ 9 → s.uop = codeShiftRows → goes s.rnd codeMixColumns) ∧
    (s.rnd = 10 → s.uop = codeShiftRows → goes 10 codeAddRoundKey) ∧
    (1 ≤ s.rnd → s.rnd ≤ 9 → s.uop = codeMixColumns → goes s.rnd codeAddRoundKey) ∧
    (1 ≤ s.rnd → s.rnd ≤ 9 → s.uop = codeAddRoundKey → goes (s.rnd + 1) codeSubBytes) ∧
    (s.rnd = 10 → s.uop = codeAddRoundKey → goes 10 codeStoreState) ∧
    (s.rnd = 10 → s.uop = codeStoreState → ∃ t, step s = .next t ∧ t.op = .idle)

/-- The next positions of a decryption, row by row of R177, and that the engine gets there; the positions the table leads
to from `(10, ADD_ROUND_KEY)` are 41, no two the same, and exactly those R177 lists. -/
def Obligations.DecryptWalkFollowsTheTable : Prop :=
  let pos (n : Nat) : Option (BitVec 4 × BitVec 4) :=
    (fun p : Option (BitVec 4 × BitVec 4) => p.bind fun q => nextDecrypt q.1 q.2)^[n] (some (10, codeAddRoundKey))
  ((∀ m n, m < 41 → n < 41 → pos m = pos n → m = n) ∧ pos 41 = none ∧
    ∀ r k, (∃ n, n < 41 ∧ pos n = some (r, k)) ↔
      (k = codeAddRoundKey ∧ r ≤ 10) ∨
      ((k = codeInvShiftRows ∨ k = codeInvSubBytes) ∧ 1 ≤ r ∧ r ≤ 10) ∨
      (k = codeInvMixColumns ∧ 1 ≤ r ∧ r ≤ 9) ∨ (r = 0 ∧ k = codeStoreState)) ∧
  ∀ s : State, s.plan = [] → s.op = .dec →
    let goes (r k : BitVec 4) : Prop := ∃ t, step s = .next t ∧ t.op = .dec ∧ t.rnd = r ∧ t.uop = k
    (s.rnd = 10 → s.uop = codeAddRoundKey → goes 10 codeInvShiftRows) ∧
    (1 ≤ s.rnd → s.rnd ≤ 9 → s.uop = codeAddRoundKey → goes s.rnd codeInvMixColumns) ∧
    (1 ≤ s.rnd → s.rnd ≤ 9 → s.uop = codeInvMixColumns → goes s.rnd codeInvShiftRows) ∧
    (1 ≤ s.rnd → s.rnd ≤ 10 → s.uop = codeInvShiftRows → goes s.rnd codeInvSubBytes) ∧
    (1 ≤ s.rnd → s.rnd ≤ 10 → s.uop = codeInvSubBytes → goes (s.rnd - 1) codeAddRoundKey) ∧
    (s.rnd = 0 → s.uop = codeAddRoundKey → goes 0 codeStoreState) ∧
    (s.rnd = 0 → s.uop = codeStoreState → ∃ t, step s = .next t ∧ t.op = .idle)

/-- An idle engine answers a whole message with a reserved operation code by IllegalCommand with no data, whatever its
length and payload, and changes no engine state (R97, R204). -/
def Obligations.ReservedOpcodeAnswered : Prop :=
  ∀ (s u : State) (opc : Byte) (data : List Byte), hostTurn s = .engine u → u.op = .idle →
    u.cmd = some (encodeMessage opc data) → data.length ≤ 255 → opc ≠ 0x01 → opc ≠ 0x02 → opc ≠ 0x03 →
    step s = .next { u with cmd := none, rsp := u.rsp ++ [⟨.error .illegalCommand, []⟩] }

/-- The meaning of a command asked for while the engine is busy answers the same state: the command is not taken. The spec
says that such a command is held (R77); that the meaning then changes nothing is the model's choice (DEDUCED, log entry
12), and the step does not ask for it. -/
def Obligations.BusyEngineTakesNoCommand : Prop :=
  ∀ (s : State) (data : List Byte), s.op ≠ .idle →
    exec (.loadKey data) s = .next s ∧ exec (.encrypt data) s = .next s ∧ exec (.decrypt data) s = .next s

/-- A command held while the engine is busy stays held, unchanged, through every step but a reset (R77, R234). -/
def Obligations.HeldCommandStaysHeld : Prop :=
  ∀ (s t : State) (bytes : List Byte), s.op ≠ .idle → s.cmd = some bytes →
    (∀ rest, s.plan ≠ .assertReset :: rest) → step s = .next t → t.cmd = some bytes

/-- With no command offered an idle engine with an empty plan waits: the state stays. The model's form of R178's "no
engine step is enabled" (log entry 3). -/
def Obligations.IdleEngineWaits : Prop :=
  ∀ s : State, s.plan = [] → s.op = .idle → s.cmd = none → step s = .next s

/-- Where the model stops, and under which name (the model's choice, log entries 5 and 6). The meanings: a micro-operation
outside the condition its rule gives, KS_LOAD and LOAD_STATE where no command is held whose accept performs them among
them, and a word index outside the table; no meaning refuses. The step, when it is the engine's turn in ENC or DEC: a code
of R100 that has no place there, a round number beyond 10, an unused code, and a transform at a position off the walk of
R176 or R177; and, idle, bytes that are no whole message. `RunsNeverStop` says that no run gets there. -/
def Obligations.WhereTheModelStops : Prop :=
  (∀ s : State,
    (s.op ≠ .idle ∨ (∀ data, data.length = 16 → s.cmd ≠ some (encodeMessage 0x01 data)) →
      exec .ksLoad s = .fault .microOpNotEnabled) ∧
    (s.op ≠ .idle ∨ s.keyValid = false ∨
        (∀ data, data.length = 16 →
          s.cmd ≠ some (encodeMessage 0x02 data) ∧ s.cmd ≠ some (encodeMessage 0x03 data)) →
      exec .loadState s = .fault .microOpNotEnabled) ∧
    (s.op ≠ .keyExp ∨ 43 < s.ki → exec .ksWord s = .fault .microOpNotEnabled) ∧
    (s.op = .keyExp → s.ki < 4 → exec .ksWord s = .fault .wordOutOfRange) ∧
    (s.op ≠ .keyExp ∨ s.ki ≠ 44 → exec .ksDone s = .fault .microOpNotEnabled) ∧
    ((s.op ≠ .enc ∧ s.op ≠ .dec) ∨ s.uop ≠ codeStoreState →
      exec .storeState s = .fault .microOpNotEnabled) ∧
    (10 < s.rnd → exec .addRoundKey s = .fault .wordOutOfRange) ∧
    (∀ i r, exec i s ≠ .refused r)) ∧
  (∀ s u : State, hostTurn s = .engine u →
    (u.op = .enc ∨ u.op = .dec →
      (u.uop < codeAddRoundKey → step s = .fault .microOpNotEnabled) ∧
      (u.uop = codeAddRoundKey → 10 < u.rnd → step s = .fault .wordOutOfRange) ∧
      (codeStoreState < u.uop → step s = .fault .unusedMicroOp)) ∧
    (u.op = .enc → codeAddRoundKey < u.uop → u.uop < codeStoreState → ¬ onEncryptWalk u.rnd u.uop →
      step s = .fault .positionOffTheWalk) ∧
    (u.op = .dec → codeAddRoundKey < u.uop → u.uop < codeStoreState → ¬ onDecryptWalk u.rnd u.uop →
      step s = .fault .positionOffTheWalk) ∧
    (∀ bytes, u.op = .idle → u.cmd = some bytes → isMessage bytes = false →
      step s = .refused .notACommandMessage))

/-! ## The host's side -/

/-- A STATUS read (R25): it may happen at any time and changes no register; the value has `KEY_VALID` in bit 0, `BUSY` in
bit 1 and zeros above. In a reachable state it is 0x00 or 0x01 idle, 0x02 in a key expansion, 0x03 in ENC or DEC; it
is 0x00 at reset. -/
def Obligations.StatusRead : Prop :=
  (∀ (s : State) (rest : List HostAction), s.plan = .readStatus :: rest →
    ∃ v : Byte, step s = .next { s with plan := rest, statusReads := s.statusReads ++ [v] } ∧
      v.getLsbD 0 = s.keyValid ∧ v.getLsbD 1 = decide (s.op ≠ .idle) ∧ (∀ k, 2 ≤ k → v.getLsbD k = false) ∧
      (Inv s → (s.op = .idle → v = (if s.keyValid then 0x01 else 0x00)) ∧ (s.op = .keyExp → v = 0x02) ∧
        (s.op = .enc ∨ s.op = .dec → v = 0x03))) ∧
  State.reset.status = 0x00

/-- The reset event (R230), at any time: idle, no valid key, no held command, `STATUS` 0x00, every response already
produced kept; of `W`, `S`, `RND`, `UOP` and `KI` nothing is said. A run begins in such a state (R38). -/
def Obligations.ResetEvent : Prop :=
  (∀ (s : State) (rest : List HostAction), s.plan = .assertReset :: rest →
    ∃ t, step s = .next t ∧ t.op = .idle ∧ t.busy = false ∧ t.keyValid = false ∧ t.cmd = none ∧ t.status = 0x00 ∧
      t.rsp = s.rsp ∧ t.rspRead = s.rspRead ∧ t.statusReads = s.statusReads ∧ t.plan = rest) ∧
  State.reset.op = .idle ∧ State.reset.busy = false ∧ State.reset.keyValid = false ∧ State.reset.cmd = none ∧
    State.reset.status = 0x00

/-- The host's offers and reads of responses: an offer goes to a free port, a read counts the next emitted response as
read; while either must wait the engine moves (the model's scheduling, log entry 3). -/
def Obligations.HostOffersAndReads : Prop :=
  ∀ (s : State) (rest : List HostAction),
    (∀ bytes, s.plan = .offer bytes :: rest → s.cmd = none →
      step s = .next { s with plan := rest, cmd := some bytes }) ∧
    (∀ bytes m, s.plan = .offer bytes :: rest → s.cmd = some m → step s = engineStep s) ∧
    (s.plan = .readResponse :: rest → s.rspRead < s.rsp.length →
      step s = .next { s with plan := rest, rspRead := s.rspRead + 1 }) ∧
    (s.plan = .readResponse :: rest → s.rsp.length ≤ s.rspRead → step s = engineStep s)

/-! ## Whole commands -/

/-- A whole LOAD_KEY: from an idle engine holding it, the accept and 41 engine steps leave `W = Expand(key)`,
`KEY_VALID = 1`, the engine idle and one response OK; `S`, `RND`, `UOP` and all else stay. That `S`, `RND` and `UOP` of the
idle engine stay is the model's choice (DEDUCED, log entry 7). With no host action to come; `CommandsFinishUnderEveryPlan`
has the runs with host actions. -/
def Obligations.LoadKeyRunsToExpand : Prop :=
  ∀ (s : State) (key : Block), s.plan = [] → s.op = .idle → s.cmd = some (encodeMessage 0x01 key.toList) →
    ∃ k, Host.Core.run Sys2Proof.core 42 s =
      .next { s with W := expand key, keyValid := true, ki := k, cmd := none, rsp := s.rsp ++ [⟨.ok, []⟩] }

/-- A whole ENCRYPT: from an idle engine with a valid key holding it, the accept and 41 engine steps leave the engine
idle and one response OK with `Encrypt(block, W)`; `W` and `KEY_VALID` stay. That `KI` of the idle engine stays is the
model's choice (DEDUCED, log entry 7). With no host action to come; `CommandsFinishUnderEveryPlan` has the runs with host
actions. -/
def Obligations.EncryptRunsToEncrypt : Prop :=
  ∀ (s : State) (block : Block), s.plan = [] → s.op = .idle → s.keyValid = true →
    s.cmd = some (encodeMessage 0x02 block.toList) →
    ∃ S' r u, Host.Core.run Sys2Proof.core 42 s =
      .next { s with
        S := S', rnd := r, uop := u, cmd := none, rsp := s.rsp ++ [⟨.ok, (encrypt block s.W).toList⟩] }

/-- A whole DECRYPT: as ENCRYPT, with `Decrypt(block, W)`. That `KI` of the idle engine stays is the model's choice (DEDUCED,
log entry 7). With no host action to come; `CommandsFinishUnderEveryPlan` has the runs with host actions. -/
def Obligations.DecryptRunsToDecrypt : Prop :=
  ∀ (s : State) (block : Block), s.plan = [] → s.op = .idle → s.keyValid = true →
    s.cmd = some (encodeMessage 0x03 block.toList) →
    ∃ S' r u, Host.Core.run Sys2Proof.core 42 s =
      .next { s with
        S := S', rnd := r, uop := u, cmd := none, rsp := s.rsp ++ [⟨.ok, (decrypt block s.W).toList⟩] }

/-- On the engine: LOAD_KEY of any key, ENCRYPT of any block, and DECRYPT of the result give the block back. -/
def Obligations.EngineRoundTrip : Prop :=
  ∀ (s : State) (key block : Block), s.plan = [] → s.op = .idle → s.cmd = some (encodeMessage 0x01 key.toList) →
    ∃ (t u v : State) (c : Block),
      Host.Core.run Sys2Proof.core 42 s = .next t ∧
      Host.Core.run Sys2Proof.core 42 { t with cmd := some (encodeMessage 0x02 block.toList) } = .next u ∧
      u.rsp = s.rsp ++ [⟨.ok, []⟩, ⟨.ok, c.toList⟩] ∧
      Host.Core.run Sys2Proof.core 42 { u with cmd := some (encodeMessage 0x03 c.toList) } = .next v ∧
      v.rsp = u.rsp ++ [⟨.ok, block.toList⟩]

/-- Step counts (R185): after its accept a valid command keeps the engine busy, with no response, for 40 steps, and the
41st makes it idle with one response. The 40 are KS_WORD steps and the last KS_DONE for LOAD_KEY; the 40 are transforms
and the last STORE_STATE for ENCRYPT and DECRYPT. An invalid command is answered in its accept. -/
def Obligations.CommandsTakeFortyOneSteps : Prop :=
  ∀ (s : State) (opc : Byte) (data : List Byte), s.plan = [] → s.op = .idle →
    s.cmd = some (encodeMessage opc data) → data.length ≤ 255 →
    (data.length = 16 → opc = 0x01 ∨ ((opc = 0x02 ∨ opc = 0x03) ∧ s.keyValid = true) →
      (∀ n, 1 ≤ n → n ≤ 41 →
        ∃ t, Host.Core.run Sys2Proof.core n s = .next t ∧ t.busy = true ∧ t.rsp = s.rsp ∧
          (opc = 0x01 → t.op = .keyExp ∧ (t.ki ≤ 43 ↔ n ≤ 40)) ∧
          (opc = 0x02 → t.op = .enc ∧ (t.uop = codeStoreState ↔ n = 41)) ∧
          (opc = 0x03 → t.op = .dec ∧ (t.uop = codeStoreState ↔ n = 41))) ∧
      ∃ t r, Host.Core.run Sys2Proof.core 42 s = .next t ∧ t.op = .idle ∧ t.rsp = s.rsp ++ [r]) ∧
    (data.length ≠ 16 ∨ ((opc = 0x02 ∨ opc = 0x03) ∧ s.keyValid = false) ∨
        (opc ≠ 0x01 ∧ opc ≠ 0x02 ∧ opc ≠ 0x03) →
      ∃ t r, Host.Core.run Sys2Proof.core 1 s = .next t ∧ t.op = .idle ∧ t.rsp = s.rsp ++ [r])

/-! ## The whole machine -/

/-- The invariant holds in the state after reset. -/
def Obligations.InvariantAtReset : Prop := Inv State.reset

/-- Every step keeps the invariant, from every state that meets it. -/
def Obligations.StepKeepsInvariant : Prop :=
  ∀ s t : State, Inv s → step s = .next t → Inv t

/-- A state that meets the invariant never stops: a step cannot fault, cannot be refused and cannot be stuck (R178), and
no failure but an error response exists (R208). -/
def Obligations.InvariantStatesNeverStop : Prop :=
  ∀ s : State, Inv s → Runs s

/-- A busy engine always finishes: from every state that meets the invariant, with no host action to come, at most 41 steps
make it idle with one response more, whose status is OK; a command held meanwhile is still held, and the very next step
takes it: by its `exec` if it decodes, by the answer IllegalCommand if its operation code is reserved (R77, R208, R237). -/
def Obligations.BusyEngineFinishes : Prop :=
  ∀ s : State, Inv s → s.plan = [] → s.op ≠ .idle →
    ∃ n t data, n ≤ 41 ∧ Host.Core.run Sys2Proof.core n s = .next t ∧ t.op = .idle ∧ t.keyValid = true ∧
      t.rsp = s.rsp ++ [⟨.ok, data⟩] ∧ t.cmd = s.cmd ∧
      ∀ bytes, s.cmd = some bytes → ∃ u, step t = .next u ∧ u.cmd = none ∧
        (∀ i, decode (.message bytes) = .ok i → step t = exec i t) ∧
        (∀ opc, decode (.message bytes) = .error (.reservedOpcode opc) →
          u = { t with cmd := none, rsp := t.rsp ++ [⟨.error .illegalCommand, []⟩] })

/-- `KEY_VALID` is written only as R23 says: to 0 by reset and by the accept of a LOAD_KEY of 16 bytes, to 1 by KS_DONE, in
every state. -/
def Obligations.KeyValidIsWrittenOnlySo : Prop :=
  ∀ s t : State, step s = .next t → t.keyValid ≠ s.keyValid →
    (t.keyValid = false ∧ ((∃ rest, s.plan = .assertReset :: rest) ∨
      (s.op = .idle ∧ ∃ data, data.length = 16 ∧ s.cmd = some (encodeMessage 0x01 data)))) ∨
    (t.keyValid = true ∧ s.op = .keyExp ∧ s.ki = 44 ∧ t.op = .idle ∧ t.rsp = s.rsp ++ [⟨.ok, []⟩])

/-- The round-key table is written only by a LOAD_KEY, its accept or a KS_WORD, and by reset: no ENCRYPT, no DECRYPT, no
failed command and no other step of the host or the engine writes it (R21). -/
def Obligations.TableIsWrittenOnlyByLoadKey : Prop :=
  ∀ s t : State, step s = .next t → t.W ≠ s.W →
    (∃ rest, s.plan = .assertReset :: rest) ∨
    (s.op = .idle ∧ ∃ data, data.length = 16 ∧ s.cmd = some (encodeMessage 0x01 data)) ∨
    (s.op = .keyExp ∧ 4 ≤ s.ki ∧ s.ki ≤ 43)

/-- The RSP port only grows, by at most one response a step; a step that emits one takes a command from the port of an
idle engine or ends the command in progress, and leaves the engine idle (R36, R75). -/
def Obligations.ResponsesOnlyGrow : Prop :=
  ∀ s t : State, step s = .next t →
    t.rsp = s.rsp ∨
    ∃ r, t.rsp = s.rsp ++ [r] ∧ t.op = .idle ∧
      ((s.op = .idle ∧ s.cmd ≠ none ∧ t.cmd = none) ∨ (s.op ≠ .idle ∧ t.cmd = s.cmd))

/-- What no rule reads before it is written cannot be observed: two states that differ only there step alike, and stay the
same to the host, in their responses and STATUS values among the rest (R35, R230). -/
def Obligations.UnwrittenStateIsUnobservable : Prop :=
  ∀ s t s' : State, SameToHost s t → step s = .next s' → ∃ t', step t = .next t' ∧ SameToHost s' t'

/-- The walk is data-independent (R182): two busy engines at the same position, with any tables and matrices, are at the
same position after a step. -/
def Obligations.WalkIsDataIndependent : Prop :=
  ∀ s t s' t' : State, s.plan = [] → t.plan = [] → s.op ≠ .idle → s.op = t.op → s.rnd = t.rnd → s.uop = t.uop →
    s.ki = t.ki → step s = .next s' → step t = .next t' →
    s'.op = t'.op ∧ s'.rnd = t'.rnd ∧ s'.uop = t'.uop ∧ s'.ki = t'.ki

/-- The host cannot disturb a command but by a reset: whatever host actions are to come, resets apart, a valid command held
by an idle engine is accepted and completes, in at most 42 steps and one for each host action, with the same table, key
flag and response as without them (R179: nothing can intervene except a reset; R184). -/
def Obligations.CommandsFinishUnderEveryPlan : Prop :=
  ∀ (s : State) (block : Block), s.op = .idle → (∀ a ∈ s.plan, a ≠ .assertReset) →
    let ends (W : Table) (data : List Byte) : Prop :=
      ∃ n t, n ≤ 42 + s.plan.length ∧ Host.Core.run Sys2Proof.core n s = .next t ∧ t.op = .idle ∧ t.W = W ∧
        t.keyValid = true ∧ t.rsp = s.rsp ++ [⟨.ok, data⟩]
    (s.cmd = some (encodeMessage 0x01 block.toList) → ends (expand block) []) ∧
    (s.keyValid = true → s.cmd = some (encodeMessage 0x02 block.toList) → ends s.W (encrypt block s.W).toList) ∧
    (s.keyValid = true → s.cmd = some (encodeMessage 0x03 block.toList) → ends s.W (decrypt block s.W).toList)

/-- No run stops: from a state that meets the invariant, and from the state after reset with any host actions to come that
offer whole messages only, any number of steps answers a next state, so none of the stops of `WhereTheModelStops` is
reached by a run (R178, R208). -/
def Obligations.RunsNeverStop : Prop :=
  (∀ (s : State) (n : Nat), Inv s → ∃ t, Host.Core.run Sys2Proof.core n s = .next t) ∧
  (∀ (plan : List HostAction) (n : Nat), (∀ a ∈ plan, a.offersMessage) →
    ∃ t, Host.Core.run Sys2Proof.core n { State.reset with plan := plan } = .next t)
end

