-- ==== Sys2Proof/Laws/Operands.lean ====
section
/-!
SUPPORT. What the operand forms do: reading a word or matrix built by a function, extensionality by bytes, payloads as
blocks, and the words a key load leaves.
-/

namespace Sys2Proof

@[simp] theorem Word.byte_ofFn (f : Fin 4 → Byte) (k : Fin 4) : (Word.ofFn f).byte k = f k := by
  fin_cases k <;> rfl

@[simp] theorem StateMatrix.get_ofFn (f : Fin 4 → Fin 4 → Byte) (r c : Fin 4) :
    (StateMatrix.ofFn f).get r c = f r c := by
  fin_cases c <;> simp [StateMatrix.get, StateMatrix.ofFn, StateMatrix.column]

@[simp] theorem StateMatrix.get_map (f : Byte → Byte) (M : StateMatrix) (r c : Fin 4) :
    (M.map f).get r c = f (M.get r c) := by simp [StateMatrix.map]

@[simp] theorem StateMatrix.column_mapColumns (f : Word → Word) (M : StateMatrix) (c : Fin 4) :
    (M.mapColumns f).column c = f (M.column c) := by fin_cases c <;> rfl

/-- Two words with the same bytes are equal. -/
theorem Word.ext_byte {a b : Word} (h : ∀ k, a.byte k = b.byte k) : a = b := by
  cases a; cases b
  simpa [Word.byte, Fin.forall_fin_succ] using h

/-- Two matrices with the same bytes are equal. -/
theorem StateMatrix.ext_get {M N : StateMatrix} (h : ∀ r c, M.get r c = N.get r c) : M = N := by
  have hc : ∀ c, M.column c = N.column c := fun c => Word.ext_byte fun r => h r c
  cases M; cases N
  simpa [StateMatrix.column, Fin.forall_fin_succ] using hc

/-- A payload is a block exactly when it has 16 bytes, and then it is that block's bytes (R67). -/
theorem blockOf_eq_some {data : List Byte} {b : Block} : blockOf data = some b ↔ data = b.toList := by
  unfold blockOf
  constructor
  · intro h
    split at h
    · simp only [Option.some.injEq] at h; subst h; simp [Vector.toList]
    · simp at h
  · rintro rfl
    simp [Vector.toList]

theorem blockOf_eq_none {data : List Byte} : blockOf data = none ↔ data.length ≠ 16 := by
  unfold blockOf; split <;> simp_all

@[simp] theorem blockOf_toList (b : Block) : blockOf b.toList = some b := blockOf_eq_some.2 rfl

/-- What a key load leaves in each word: the key's words in 0 to 3, the rest as it was (R64, R125). -/
theorem loadKeyWords_getElem (W : Table) (key : Block) (i : Nat) (h : i < 44) :
    (loadKeyWords W key)[i] = if h4 : i < 4 then keyWord key ⟨i, h4⟩ else W[i] := by
  unfold loadKeyWords
  by_cases h4 : i < 4
  · interval_cases i <;> simp
  · simp only [Vector.getElem_set, h4, dite_false]
    rw [if_neg (by omega), if_neg (by omega), if_neg (by omega), if_neg (by omega)]

end Sys2Proof
end

