-- ==== Sys2Proof/Laws/KeySchedule.lean ====
section
/-!
SUPPORT. The loop of the key expansion: a word of the schedule reads two words before it and nothing else, and each
turn of the loop writes one word (40_key_schedule.md R121, R126).
-/

namespace Sys2Proof.Machine

/-- The schedule's word reads only the word before it and the word four before it (R121). -/
theorem scheduleWord_congr {A B : Table} {i : Nat} (h4 : 4 ≤ i) (h : i < 44) (e1 : A[i - 1] = B[i - 1])
    (e4 : A[i - 4] = B[i - 4]) : scheduleWord A i h4 h = scheduleWord B i h4 h := by
  unfold scheduleWord; rw [e1, e4]

/-- A turn of the loop in range is one write. -/
theorem expandStep_eq_set (W : Table) {i : Nat} (h4 : 4 ≤ i) (h : i < 44) :
    expandStep W i = W.set i (scheduleWord W i h4 h) h := by
  unfold expandStep; rw [dif_pos ⟨h4, h⟩]

/-- A turn of the loop leaves every other word alone. -/
theorem expandStep_getElem_ne (W : Table) {i j : Nat} (hj : j < 44) (h : j ≠ i) : (expandStep W i)[j] = W[j] := by
  unfold expandStep
  split
  · exact Vector.getElem_set_ne _ _ (by omega)
  · rfl

/-- After `n` turns the first four words are as before and the next `n` obey the recurrence. -/
theorem expandLoop_spec (W : Table) (n : Nat) (hn : n ≤ 40) :
    let T := (List.range' 4 n).foldl expandStep W
    (∀ i (h : i < 44), i < 4 → T[i] = W[i]) ∧
    (∀ i (h4 : 4 ≤ i) (h : i < 44), i < 4 + n → T[i] = scheduleWord T i h4 h) := by
  induction n with
  | zero => exact ⟨fun _ _ _ => rfl, fun i h4 _ hi => absurd hi (by omega)⟩
  | succ n ih =>
    obtain ⟨ha, hb⟩ := ih (by omega)
    have hfold : (List.range' 4 (n + 1)).foldl expandStep W =
        expandStep ((List.range' 4 n).foldl expandStep W) (4 + n) := by simp [List.range'_concat]
    simp only [hfold]
    have keep := fun j hj (hne : j ≠ 4 + n) =>
      expandStep_getElem_ne ((List.range' 4 n).foldl expandStep W) (i := 4 + n) (j := j) hj hne
    refine ⟨fun i h hi => by rw [keep i h (by omega)]; exact ha i h hi, fun i h4 h hi => ?_⟩
    rw [scheduleWord_congr h4 h (keep _ (by omega) (by omega)) (keep _ (by omega) (by omega))]
    by_cases he : i = 4 + n
    · subst he
      simp only [expandStep_eq_set _ h4 h, Vector.getElem_set_self]
    · rw [keep i h he]; exact hb i h4 h (by omega)

end Sys2Proof.Machine
end

