-- ==== Sys2Proof/Laws/PerInstr.lean ====
section
/-!
SUPPORT. The statement made per instruction: what a well-formed instruction is written as has the form its kind has on the
hardware (30_encoding.md R91, R93, R100).
-/

namespace Sys2Proof.Laws.EncodedForm

/-- A well-formed command is written as one whole message whose first byte is one of the three operation codes (R91,
R93), and a micro-operation as one of the twelve used codes (R100). -/
def Statement (i : Instr) : Prop :=
  i.wellFormed = true →
    match encode i with
    | .message bytes => isMessage bytes = true ∧ 2 ≤ bytes.length ∧ bytes.length ≤ 257 ∧
        (bytes.head? = some 0x01 ∨ bytes.head? = some 0x02 ∨ bytes.head? = some 0x03)
    | .code c => c ≤ 0xB

/-- A command's message is whole when its payload fits `LEN`. -/
theorem encodeMessage_form {opc : Byte} {d : List Byte} (h : d.length ≤ 255) :
    isMessage (encodeMessage opc d) = true ∧ 2 ≤ (encodeMessage opc d).length ∧
      (encodeMessage opc d).length ≤ 257 := by
  simp [isMessage, encodeMessage, Nat.mod_eq_of_lt (show d.length < 256 by omega)]; omega

theorem loadKey (data : List Byte) : Statement (.loadKey data) := fun h =>
  have f := encodeMessage_form (opc := 0x01) (of_decide_eq_true h)
  ⟨f.1, f.2.1, f.2.2, .inl rfl⟩

theorem encrypt (data : List Byte) : Statement (.encrypt data) := fun h =>
  have f := encodeMessage_form (opc := 0x02) (of_decide_eq_true h)
  ⟨f.1, f.2.1, f.2.2, .inr (.inl rfl)⟩

theorem decrypt (data : List Byte) : Statement (.decrypt data) := fun h =>
  have f := encodeMessage_form (opc := 0x03) (of_decide_eq_true h)
  ⟨f.1, f.2.1, f.2.2, .inr (.inr rfl)⟩

theorem ksLoad : Statement .ksLoad := fun _ => show (0x0 : BitVec 4) ≤ 0xB by decide
theorem ksWord : Statement .ksWord := fun _ => show (0x1 : BitVec 4) ≤ 0xB by decide
theorem ksDone : Statement .ksDone := fun _ => show (0x2 : BitVec 4) ≤ 0xB by decide
theorem loadState : Statement .loadState := fun _ => show (0x3 : BitVec 4) ≤ 0xB by decide
theorem addRoundKey : Statement .addRoundKey := fun _ => show (0x4 : BitVec 4) ≤ 0xB by decide
theorem subBytes : Statement .subBytes := fun _ => show (0x5 : BitVec 4) ≤ 0xB by decide
theorem shiftRows : Statement .shiftRows := fun _ => show (0x6 : BitVec 4) ≤ 0xB by decide
theorem mixColumns : Statement .mixColumns := fun _ => show (0x7 : BitVec 4) ≤ 0xB by decide
theorem invSubBytes : Statement .invSubBytes := fun _ => show (0x8 : BitVec 4) ≤ 0xB by decide
theorem invShiftRows : Statement .invShiftRows := fun _ => show (0x9 : BitVec 4) ≤ 0xB by decide
theorem invMixColumns : Statement .invMixColumns := fun _ => show (0xA : BitVec 4) ≤ 0xB by decide
theorem storeState : Statement .storeState := fun _ => show (0xB : BitVec 4) ≤ 0xB by decide

end Sys2Proof.Laws.EncodedForm
end

