-- ==== Sys2Proof/Laws/State.lean ====
section
/-!
SUPPORT. One lemma per field per named update of the state, each true by unfolding, so that no later proof unfolds a
record update.
-/

namespace Sys2Proof.Machine

variable (s : State)

@[simp] theorem State.setTable_W (W : Table) : (s.setTable W).W = W := rfl
@[simp] theorem State.setTable_S (W : Table) : (s.setTable W).S = s.S := rfl
@[simp] theorem State.setTable_keyValid (W : Table) : (s.setTable W).keyValid = s.keyValid := rfl
@[simp] theorem State.setTable_op (W : Table) : (s.setTable W).op = s.op := rfl
@[simp] theorem State.setTable_rnd (W : Table) : (s.setTable W).rnd = s.rnd := rfl
@[simp] theorem State.setTable_uop (W : Table) : (s.setTable W).uop = s.uop := rfl
@[simp] theorem State.setTable_ki (W : Table) : (s.setTable W).ki = s.ki := rfl
@[simp] theorem State.setTable_cmd (W : Table) : (s.setTable W).cmd = s.cmd := rfl
@[simp] theorem State.setTable_rsp (W : Table) : (s.setTable W).rsp = s.rsp := rfl
@[simp] theorem State.setTable_rspRead (W : Table) : (s.setTable W).rspRead = s.rspRead := rfl
@[simp] theorem State.setTable_statusReads (W : Table) : (s.setTable W).statusReads = s.statusReads := rfl
@[simp] theorem State.setTable_plan (W : Table) : (s.setTable W).plan = s.plan := rfl
@[simp] theorem State.setTable_draws (W : Table) : (s.setTable W).draws = s.draws := rfl

@[simp] theorem State.setMatrix_W (S : StateMatrix) : (s.setMatrix S).W = s.W := rfl
@[simp] theorem State.setMatrix_S (S : StateMatrix) : (s.setMatrix S).S = S := rfl
@[simp] theorem State.setMatrix_keyValid (S : StateMatrix) : (s.setMatrix S).keyValid = s.keyValid := rfl
@[simp] theorem State.setMatrix_op (S : StateMatrix) : (s.setMatrix S).op = s.op := rfl
@[simp] theorem State.setMatrix_rnd (S : StateMatrix) : (s.setMatrix S).rnd = s.rnd := rfl
@[simp] theorem State.setMatrix_uop (S : StateMatrix) : (s.setMatrix S).uop = s.uop := rfl
@[simp] theorem State.setMatrix_ki (S : StateMatrix) : (s.setMatrix S).ki = s.ki := rfl
@[simp] theorem State.setMatrix_cmd (S : StateMatrix) : (s.setMatrix S).cmd = s.cmd := rfl
@[simp] theorem State.setMatrix_rsp (S : StateMatrix) : (s.setMatrix S).rsp = s.rsp := rfl
@[simp] theorem State.setMatrix_rspRead (S : StateMatrix) : (s.setMatrix S).rspRead = s.rspRead := rfl
@[simp] theorem State.setMatrix_statusReads (S : StateMatrix) : (s.setMatrix S).statusReads = s.statusReads := rfl
@[simp] theorem State.setMatrix_plan (S : StateMatrix) : (s.setMatrix S).plan = s.plan := rfl
@[simp] theorem State.setMatrix_draws (S : StateMatrix) : (s.setMatrix S).draws = s.draws := rfl

@[simp] theorem State.setKeyValid_W (v : Bool) : (s.setKeyValid v).W = s.W := rfl
@[simp] theorem State.setKeyValid_S (v : Bool) : (s.setKeyValid v).S = s.S := rfl
@[simp] theorem State.setKeyValid_keyValid (v : Bool) : (s.setKeyValid v).keyValid = v := rfl
@[simp] theorem State.setKeyValid_op (v : Bool) : (s.setKeyValid v).op = s.op := rfl
@[simp] theorem State.setKeyValid_rnd (v : Bool) : (s.setKeyValid v).rnd = s.rnd := rfl
@[simp] theorem State.setKeyValid_uop (v : Bool) : (s.setKeyValid v).uop = s.uop := rfl
@[simp] theorem State.setKeyValid_ki (v : Bool) : (s.setKeyValid v).ki = s.ki := rfl
@[simp] theorem State.setKeyValid_cmd (v : Bool) : (s.setKeyValid v).cmd = s.cmd := rfl
@[simp] theorem State.setKeyValid_rsp (v : Bool) : (s.setKeyValid v).rsp = s.rsp := rfl
@[simp] theorem State.setKeyValid_rspRead (v : Bool) : (s.setKeyValid v).rspRead = s.rspRead := rfl
@[simp] theorem State.setKeyValid_statusReads (v : Bool) : (s.setKeyValid v).statusReads = s.statusReads := rfl
@[simp] theorem State.setKeyValid_plan (v : Bool) : (s.setKeyValid v).plan = s.plan := rfl
@[simp] theorem State.setKeyValid_draws (v : Bool) : (s.setKeyValid v).draws = s.draws := rfl

@[simp] theorem State.setOp_W (o : Op) : (s.setOp o).W = s.W := rfl
@[simp] theorem State.setOp_S (o : Op) : (s.setOp o).S = s.S := rfl
@[simp] theorem State.setOp_keyValid (o : Op) : (s.setOp o).keyValid = s.keyValid := rfl
@[simp] theorem State.setOp_op (o : Op) : (s.setOp o).op = o := rfl
@[simp] theorem State.setOp_rnd (o : Op) : (s.setOp o).rnd = s.rnd := rfl
@[simp] theorem State.setOp_uop (o : Op) : (s.setOp o).uop = s.uop := rfl
@[simp] theorem State.setOp_ki (o : Op) : (s.setOp o).ki = s.ki := rfl
@[simp] theorem State.setOp_cmd (o : Op) : (s.setOp o).cmd = s.cmd := rfl
@[simp] theorem State.setOp_rsp (o : Op) : (s.setOp o).rsp = s.rsp := rfl
@[simp] theorem State.setOp_rspRead (o : Op) : (s.setOp o).rspRead = s.rspRead := rfl
@[simp] theorem State.setOp_statusReads (o : Op) : (s.setOp o).statusReads = s.statusReads := rfl
@[simp] theorem State.setOp_plan (o : Op) : (s.setOp o).plan = s.plan := rfl
@[simp] theorem State.setOp_draws (o : Op) : (s.setOp o).draws = s.draws := rfl

@[simp] theorem State.setPosition_W (r u : BitVec 4) : (s.setPosition r u).W = s.W := rfl
@[simp] theorem State.setPosition_S (r u : BitVec 4) : (s.setPosition r u).S = s.S := rfl
@[simp] theorem State.setPosition_keyValid (r u : BitVec 4) : (s.setPosition r u).keyValid = s.keyValid := rfl
@[simp] theorem State.setPosition_op (r u : BitVec 4) : (s.setPosition r u).op = s.op := rfl
@[simp] theorem State.setPosition_rnd (r u : BitVec 4) : (s.setPosition r u).rnd = r := rfl
@[simp] theorem State.setPosition_uop (r u : BitVec 4) : (s.setPosition r u).uop = u := rfl
@[simp] theorem State.setPosition_ki (r u : BitVec 4) : (s.setPosition r u).ki = s.ki := rfl
@[simp] theorem State.setPosition_cmd (r u : BitVec 4) : (s.setPosition r u).cmd = s.cmd := rfl
@[simp] theorem State.setPosition_rsp (r u : BitVec 4) : (s.setPosition r u).rsp = s.rsp := rfl
@[simp] theorem State.setPosition_rspRead (r u : BitVec 4) : (s.setPosition r u).rspRead = s.rspRead := rfl
@[simp] theorem State.setPosition_statusReads (r u : BitVec 4) : (s.setPosition r u).statusReads = s.statusReads := rfl
@[simp] theorem State.setPosition_plan (r u : BitVec 4) : (s.setPosition r u).plan = s.plan := rfl
@[simp] theorem State.setPosition_draws (r u : BitVec 4) : (s.setPosition r u).draws = s.draws := rfl

@[simp] theorem State.setKi_W (k : BitVec 6) : (s.setKi k).W = s.W := rfl
@[simp] theorem State.setKi_S (k : BitVec 6) : (s.setKi k).S = s.S := rfl
@[simp] theorem State.setKi_keyValid (k : BitVec 6) : (s.setKi k).keyValid = s.keyValid := rfl
@[simp] theorem State.setKi_op (k : BitVec 6) : (s.setKi k).op = s.op := rfl
@[simp] theorem State.setKi_rnd (k : BitVec 6) : (s.setKi k).rnd = s.rnd := rfl
@[simp] theorem State.setKi_uop (k : BitVec 6) : (s.setKi k).uop = s.uop := rfl
@[simp] theorem State.setKi_ki (k : BitVec 6) : (s.setKi k).ki = k := rfl
@[simp] theorem State.setKi_cmd (k : BitVec 6) : (s.setKi k).cmd = s.cmd := rfl
@[simp] theorem State.setKi_rsp (k : BitVec 6) : (s.setKi k).rsp = s.rsp := rfl
@[simp] theorem State.setKi_rspRead (k : BitVec 6) : (s.setKi k).rspRead = s.rspRead := rfl
@[simp] theorem State.setKi_statusReads (k : BitVec 6) : (s.setKi k).statusReads = s.statusReads := rfl
@[simp] theorem State.setKi_plan (k : BitVec 6) : (s.setKi k).plan = s.plan := rfl
@[simp] theorem State.setKi_draws (k : BitVec 6) : (s.setKi k).draws = s.draws := rfl

@[simp] theorem State.setCmd_W (c : Option (List Byte)) : (s.setCmd c).W = s.W := rfl
@[simp] theorem State.setCmd_S (c : Option (List Byte)) : (s.setCmd c).S = s.S := rfl
@[simp] theorem State.setCmd_keyValid (c : Option (List Byte)) : (s.setCmd c).keyValid = s.keyValid := rfl
@[simp] theorem State.setCmd_op (c : Option (List Byte)) : (s.setCmd c).op = s.op := rfl
@[simp] theorem State.setCmd_rnd (c : Option (List Byte)) : (s.setCmd c).rnd = s.rnd := rfl
@[simp] theorem State.setCmd_uop (c : Option (List Byte)) : (s.setCmd c).uop = s.uop := rfl
@[simp] theorem State.setCmd_ki (c : Option (List Byte)) : (s.setCmd c).ki = s.ki := rfl
@[simp] theorem State.setCmd_cmd (c : Option (List Byte)) : (s.setCmd c).cmd = c := rfl
@[simp] theorem State.setCmd_rsp (c : Option (List Byte)) : (s.setCmd c).rsp = s.rsp := rfl
@[simp] theorem State.setCmd_rspRead (c : Option (List Byte)) : (s.setCmd c).rspRead = s.rspRead := rfl
@[simp] theorem State.setCmd_statusReads (c : Option (List Byte)) : (s.setCmd c).statusReads = s.statusReads := rfl
@[simp] theorem State.setCmd_plan (c : Option (List Byte)) : (s.setCmd c).plan = s.plan := rfl
@[simp] theorem State.setCmd_draws (c : Option (List Byte)) : (s.setCmd c).draws = s.draws := rfl

@[simp] theorem State.setPlan_W (p : List HostAction) : (s.setPlan p).W = s.W := rfl
@[simp] theorem State.setPlan_S (p : List HostAction) : (s.setPlan p).S = s.S := rfl
@[simp] theorem State.setPlan_keyValid (p : List HostAction) : (s.setPlan p).keyValid = s.keyValid := rfl
@[simp] theorem State.setPlan_op (p : List HostAction) : (s.setPlan p).op = s.op := rfl
@[simp] theorem State.setPlan_rnd (p : List HostAction) : (s.setPlan p).rnd = s.rnd := rfl
@[simp] theorem State.setPlan_uop (p : List HostAction) : (s.setPlan p).uop = s.uop := rfl
@[simp] theorem State.setPlan_ki (p : List HostAction) : (s.setPlan p).ki = s.ki := rfl
@[simp] theorem State.setPlan_cmd (p : List HostAction) : (s.setPlan p).cmd = s.cmd := rfl
@[simp] theorem State.setPlan_rsp (p : List HostAction) : (s.setPlan p).rsp = s.rsp := rfl
@[simp] theorem State.setPlan_rspRead (p : List HostAction) : (s.setPlan p).rspRead = s.rspRead := rfl
@[simp] theorem State.setPlan_statusReads (p : List HostAction) : (s.setPlan p).statusReads = s.statusReads := rfl
@[simp] theorem State.setPlan_plan (p : List HostAction) : (s.setPlan p).plan = p := rfl
@[simp] theorem State.setPlan_draws (p : List HostAction) : (s.setPlan p).draws = s.draws := rfl

@[simp] theorem State.respond_W (st : Status) (d : List Byte) : (s.respond st d).W = s.W := rfl
@[simp] theorem State.respond_S (st : Status) (d : List Byte) : (s.respond st d).S = s.S := rfl
@[simp] theorem State.respond_keyValid (st : Status) (d : List Byte) : (s.respond st d).keyValid = s.keyValid := rfl
@[simp] theorem State.respond_op (st : Status) (d : List Byte) : (s.respond st d).op = s.op := rfl
@[simp] theorem State.respond_rnd (st : Status) (d : List Byte) : (s.respond st d).rnd = s.rnd := rfl
@[simp] theorem State.respond_uop (st : Status) (d : List Byte) : (s.respond st d).uop = s.uop := rfl
@[simp] theorem State.respond_ki (st : Status) (d : List Byte) : (s.respond st d).ki = s.ki := rfl
@[simp] theorem State.respond_cmd (st : Status) (d : List Byte) : (s.respond st d).cmd = s.cmd := rfl
@[simp] theorem State.respond_rsp (st : Status) (d : List Byte) : (s.respond st d).rsp = s.rsp ++ [⟨st, d⟩] := rfl
@[simp] theorem State.respond_rspRead (st : Status) (d : List Byte) : (s.respond st d).rspRead = s.rspRead := rfl
@[simp] theorem State.respond_statusReads (st : Status) (d : List Byte) : (s.respond st d).statusReads = s.statusReads := rfl
@[simp] theorem State.respond_plan (st : Status) (d : List Byte) : (s.respond st d).plan = s.plan := rfl
@[simp] theorem State.respond_draws (st : Status) (d : List Byte) : (s.respond st d).draws = s.draws := rfl

@[simp] theorem State.readResponse_W : (s.readResponse).W = s.W := rfl
@[simp] theorem State.readResponse_S : (s.readResponse).S = s.S := rfl
@[simp] theorem State.readResponse_keyValid : (s.readResponse).keyValid = s.keyValid := rfl
@[simp] theorem State.readResponse_op : (s.readResponse).op = s.op := rfl
@[simp] theorem State.readResponse_rnd : (s.readResponse).rnd = s.rnd := rfl
@[simp] theorem State.readResponse_uop : (s.readResponse).uop = s.uop := rfl
@[simp] theorem State.readResponse_ki : (s.readResponse).ki = s.ki := rfl
@[simp] theorem State.readResponse_cmd : (s.readResponse).cmd = s.cmd := rfl
@[simp] theorem State.readResponse_rsp : (s.readResponse).rsp = s.rsp := rfl
@[simp] theorem State.readResponse_rspRead : (s.readResponse).rspRead = s.rspRead + 1 := rfl
@[simp] theorem State.readResponse_statusReads : (s.readResponse).statusReads = s.statusReads := rfl
@[simp] theorem State.readResponse_plan : (s.readResponse).plan = s.plan := rfl
@[simp] theorem State.readResponse_draws : (s.readResponse).draws = s.draws := rfl

@[simp] theorem State.readStatus_W : (s.readStatus).W = s.W := rfl
@[simp] theorem State.readStatus_S : (s.readStatus).S = s.S := rfl
@[simp] theorem State.readStatus_keyValid : (s.readStatus).keyValid = s.keyValid := rfl
@[simp] theorem State.readStatus_op : (s.readStatus).op = s.op := rfl
@[simp] theorem State.readStatus_rnd : (s.readStatus).rnd = s.rnd := rfl
@[simp] theorem State.readStatus_uop : (s.readStatus).uop = s.uop := rfl
@[simp] theorem State.readStatus_ki : (s.readStatus).ki = s.ki := rfl
@[simp] theorem State.readStatus_cmd : (s.readStatus).cmd = s.cmd := rfl
@[simp] theorem State.readStatus_rsp : (s.readStatus).rsp = s.rsp := rfl
@[simp] theorem State.readStatus_rspRead : (s.readStatus).rspRead = s.rspRead := rfl
@[simp] theorem State.readStatus_statusReads : (s.readStatus).statusReads = s.statusReads ++ [s.status] := rfl
@[simp] theorem State.readStatus_plan : (s.readStatus).plan = s.plan := rfl
@[simp] theorem State.readStatus_draws : (s.readStatus).draws = s.draws := rfl

@[simp] theorem State.raiseError_W (e : ErrorKind) : (s.raiseError e).W = s.W := rfl
@[simp] theorem State.raiseError_S (e : ErrorKind) : (s.raiseError e).S = s.S := rfl
@[simp] theorem State.raiseError_keyValid (e : ErrorKind) : (s.raiseError e).keyValid = s.keyValid := rfl
@[simp] theorem State.raiseError_op (e : ErrorKind) : (s.raiseError e).op = s.op := rfl
@[simp] theorem State.raiseError_rnd (e : ErrorKind) : (s.raiseError e).rnd = s.rnd := rfl
@[simp] theorem State.raiseError_uop (e : ErrorKind) : (s.raiseError e).uop = s.uop := rfl
@[simp] theorem State.raiseError_ki (e : ErrorKind) : (s.raiseError e).ki = s.ki := rfl
@[simp] theorem State.raiseError_cmd (e : ErrorKind) : (s.raiseError e).cmd = none := rfl
@[simp] theorem State.raiseError_rsp (e : ErrorKind) : (s.raiseError e).rsp = s.rsp ++ [⟨.error e, []⟩] := rfl
@[simp] theorem State.raiseError_rspRead (e : ErrorKind) : (s.raiseError e).rspRead = s.rspRead := rfl
@[simp] theorem State.raiseError_statusReads (e : ErrorKind) : (s.raiseError e).statusReads = s.statusReads := rfl
@[simp] theorem State.raiseError_plan (e : ErrorKind) : (s.raiseError e).plan = s.plan := rfl
@[simp] theorem State.raiseError_draws (e : ErrorKind) : (s.raiseError e).draws = s.draws := rfl

@[simp] theorem State.resetEvent_keyValid : s.resetEvent.keyValid = false := by simp only [State.resetEvent]
@[simp] theorem State.resetEvent_op : s.resetEvent.op = .idle := by simp only [State.resetEvent]
@[simp] theorem State.resetEvent_cmd : s.resetEvent.cmd = none := by simp only [State.resetEvent]
@[simp] theorem State.resetEvent_rsp : s.resetEvent.rsp = s.rsp := by simp only [State.resetEvent]
@[simp] theorem State.resetEvent_rspRead : s.resetEvent.rspRead = s.rspRead := by simp only [State.resetEvent]
@[simp] theorem State.resetEvent_statusReads : s.resetEvent.statusReads = s.statusReads := by simp only [State.resetEvent]
@[simp] theorem State.resetEvent_plan : s.resetEvent.plan = s.plan := by simp only [State.resetEvent]
@[simp] theorem State.resetEvent_draws : s.resetEvent.draws = s.draws + resetDraws := by simp only [State.resetEvent]

end Sys2Proof.Machine
end

