-- ==== Sys2Proof/Laws/Steps.lean ====
section
/-!
SUPPORT. What the shared operations and a step can do, each said once: if it answers a next state, then one of these.
-/

namespace Sys2Proof.Machine

open Host (Outcome)

@[simp] theorem busy_eq_true {s : State} : s.busy = true ↔ s.op ≠ .idle := by simp [State.busy]

@[simp] theorem busy_eq_false {s : State} : s.busy = false ↔ s.op = .idle := by simp [State.busy]

/-- A move of the sequencer goes on exactly when there is a next position. -/
theorem moveTo_next {p : Option (BitVec 4 × BitVec 4)} {t u : State} (h : moveTo p t = .next u) :
    ∃ r k, p = some (r, k) ∧ u = t.setPosition r k := by
  unfold moveTo at h
  split at h
  · cases h; exact ⟨_, _, rfl, rfl⟩
  · cases h

/-- What the step does after its micro-operation (R178). -/
theorem advance_next {s t u : State} (h : advance s t = .next u) :
    ((s.op = .idle ∨ s.op = .keyExp ∨ s.uop = codeStoreState) ∧ u = t) ∨
    (s.op = .enc ∧ s.uop ≠ codeStoreState ∧ ∃ r k, nextEncrypt s.rnd s.uop = some (r, k) ∧ u = t.setPosition r k) ∨
    (s.op = .dec ∧ s.uop ≠ codeStoreState ∧ ∃ r k, nextDecrypt s.rnd s.uop = some (r, k) ∧ u = t.setPosition r k) := by
  unfold advance at h
  split at h
  · cases h; simp_all
  · cases h; simp_all
  · split at h
    · cases h; simp_all
    · exact .inr (.inl ⟨‹_›, ‹_›, moveTo_next h⟩)
  · split at h
    · cases h; simp_all
    · exact .inr (.inr ⟨‹_›, ‹_›, moveTo_next h⟩)

/-- The accept of a block command: it waits, reports one of its two errors, or starts. -/
theorem acceptBlock_next {start : Block → State → State} {data : List Byte} {s t : State}
    (h : acceptBlock start data s = .next t) :
    (s.op ≠ .idle ∧ t = s) ∨
    (s.op = .idle ∧ data.length ≠ 16 ∧ t = s.raiseError .invalidBlockLength) ∨
    (s.op = .idle ∧ data.length = 16 ∧ s.keyValid = false ∧ t = s.raiseError .uninitializedKey) ∨
    (∃ b, s.op = .idle ∧ data = b.toList ∧ s.keyValid = true ∧ t = start b s) := by
  unfold acceptBlock at h
  split at h
  · rename_i hb; cases h; exact .inl ⟨busy_eq_true.1 hb, rfl⟩
  · rename_i hb
    have hi : s.op = .idle := by simpa using hb
    split at h
    · rename_i hn; cases h; exact .inr (.inl ⟨hi, blockOf_eq_none.1 hn, rfl⟩)
    · rename_i b hs
      have hd := blockOf_eq_some.1 hs
      split at h
      · cases h; exact .inr (.inr (.inr ⟨b, hi, hd, ‹_›, rfl⟩))
      · rename_i hk; cases h; exact .inr (.inr (.inl ⟨hi, by simp [hd], by simpa using hk, rfl⟩))

/-- The accept of LOAD_KEY: it waits, reports its error, or starts the expansion. -/
theorem execLoadKey_next {data : List Byte} {s t : State} (h : execLoadKey data s = .next t) :
    (s.op ≠ .idle ∧ t = s) ∨
    (s.op = .idle ∧ data.length ≠ 16 ∧ t = s.raiseError .invalidKeyLength) ∨
    (∃ key, s.op = .idle ∧ data = key.toList ∧ t = startExpansion key s) := by
  unfold execLoadKey at h
  split at h
  · rename_i hb; cases h; exact .inl ⟨busy_eq_true.1 hb, rfl⟩
  · rename_i hb
    have hi : s.op = .idle := by simpa using hb
    split at h
    · rename_i hn; cases h; exact .inr (.inl ⟨hi, blockOf_eq_none.1 hn, rfl⟩)
    · rename_i key hs; cases h; exact .inr (.inr ⟨key, hi, blockOf_eq_some.1 hs, rfl⟩)

/-- KS_WORD goes on only in a key expansion with `4 <= KI <= 43`. -/
theorem execKsWord_next {s t : State} (h : execKsWord s = .next t) :
    s.op = .keyExp ∧ ∃ (hlo : 4 ≤ s.ki.toNat) (hhi : s.ki.toNat < 44),
      t = (s.setTable (s.W.set s.ki.toNat (scheduleWord s.W s.ki.toNat hlo hhi) hhi)).setKi (s.ki + 1) := by
  unfold execKsWord at h
  split at h
  · rename_i hc
    split at h
    · cases h; exact ⟨hc.1, ‹_›, hc.2, rfl⟩
    · cases h
  · cases h

/-- KS_DONE goes on only in a key expansion with `KI = 44`. -/
theorem execKsDone_next {s t : State} (h : execKsDone s = .next t) :
    s.op = .keyExp ∧ s.ki = 44 ∧ t = ((s.setKeyValid true).setOp .idle).respond .ok [] := by
  unfold execKsDone at h
  split at h
  · rename_i hc; cases h; exact ⟨hc.1, hc.2, rfl⟩
  · cases h

/-- STORE_STATE goes on only in ENC or DEC with its code in `UOP`. -/
theorem execStoreState_next {s t : State} (h : execStoreState s = .next t) :
    (s.op = .enc ∨ s.op = .dec) ∧ s.uop = codeStoreState ∧
      t = (s.respond .ok (fromMatrix s.S).toList).setOp .idle := by
  unfold execStoreState at h
  split at h
  · rename_i hc; cases h; exact ⟨hc.1, hc.2, rfl⟩
  · cases h

/-- The operand of KS_LOAD is there only when an idle engine holds a LOAD_KEY. -/
theorem heldKey_idle {s : State} {key : Block} (h : heldKey s = some key) : s.op = .idle := by
  unfold heldKey at h
  split at h <;> simp_all

/-- LOAD_STATE has something to load only when the engine is idle with a valid key. -/
theorem heldLoad_idle {s t : State} (h : heldLoad s = some t) : s.op = .idle ∧ s.keyValid = true := by
  unfold heldLoad at h
  split at h <;> simp_all

/-- Only a message's opcode decides the command, and it is one of the three (R93, R94). -/
theorem decodeMessage_ok {bytes : List Byte} {i : Instr} (h : decodeMessage bytes = .ok i) :
    ∃ data, data.length ≤ 255 ∧ isMessage bytes = true ∧
      ((i = .loadKey data ∧ bytes = encodeMessage 0x01 data) ∨ (i = .encrypt data ∧ bytes = encodeMessage 0x02 data) ∨
        (i = .decrypt data ∧ bytes = encodeMessage 0x03 data)) := by
  match bytes, h with
  | [], h => simp [decodeMessage] at h
  | [_], h => simp [decodeMessage] at h
  | opc :: len :: data, h =>
    simp only [decodeMessage] at h
    split at h
    · rename_i hl
      have hlen : BitVec.ofNat 8 data.length = len := by simp [hl]
      refine ⟨data, by have := len.isLt; omega, by simp [isMessage, hl], ?_⟩
      unfold decodeOpcode at h
      split at h
      · cases h; simp_all [encodeMessage]
      · split at h
        · cases h; simp_all [encodeMessage]
        · split at h
          · cases h; simp_all [encodeMessage]
          · cases h
    · cases h

/-- The operand of KS_LOAD is the payload of the LOAD_KEY the port holds (R125). -/
theorem heldKey_cmd {s : State} {key : Block} (h : heldKey s = some key) :
    s.cmd = some (encodeMessage 0x01 key.toList) := by
  unfold heldKey at h
  split at h
  · rename_i bytes _ hc
    split at h
    · rename_i data hd
      have hb := blockOf_eq_some.1 h
      obtain ⟨d, -, -, ⟨hx, hy⟩ | ⟨hx, -⟩ | ⟨hx, -⟩⟩ := decodeMessage_ok hd
      · cases hx; rw [hc, hy, hb]
      · cases hx
      · cases hx
    · cases h
  · cases h

/-- What LOAD_STATE loads is the payload of the ENCRYPT or DECRYPT the port holds (R174). -/
theorem heldLoad_cmd {s t : State} (h : heldLoad s = some t) : ∃ b : Block,
    (s.cmd = some (encodeMessage 0x02 b.toList) ∧ t = startEncrypt b s) ∨
      (s.cmd = some (encodeMessage 0x03 b.toList) ∧ t = startDecrypt b s) := by
  unfold heldLoad at h
  split at h
  · rename_i bytes _ _ hc
    split at h
    · rename_i data hd
      obtain ⟨b, hb, rfl⟩ := Option.map_eq_some_iff.1 h
      obtain ⟨d, -, -, ⟨hx, -⟩ | ⟨hx, hy⟩ | ⟨hx, -⟩⟩ := decodeMessage_ok hd
      · cases hx
      · cases hx; exact ⟨b, .inl ⟨by rw [hc, hy, blockOf_eq_some.1 hb], rfl⟩⟩
      · cases hx
    · rename_i data hd
      obtain ⟨b, hb, rfl⟩ := Option.map_eq_some_iff.1 h
      obtain ⟨d, -, -, ⟨hx, -⟩ | ⟨hx, -⟩ | ⟨hx, hy⟩⟩ := decodeMessage_ok hd
      · cases hx
      · cases hx
      · cases hx; exact ⟨b, .inr ⟨by rw [hc, hy, blockOf_eq_some.1 hb], rfl⟩⟩
    · cases h
  · cases h

/-- The transform a position performs on the matrix, for the seven micro-operations that have one; ADD_ROUND_KEY needs
a round number in range (R178). -/
def transformAt (W : Table) (r u : BitVec 4) (S : StateMatrix) : Option StateMatrix :=
  if u = codeAddRoundKey then
    if h : r.toNat < 11 then some (addRoundKey S (roundKey W ⟨r.toNat, h⟩)) else none
  else if u = codeSubBytes then some (subBytes S)
  else if u = codeShiftRows then some (shiftRows S)
  else if u = codeMixColumns then some (mixColumns S)
  else if u = codeInvSubBytes then some (invSubBytes S)
  else if u = codeInvShiftRows then some (invShiftRows S)
  else if u = codeInvMixColumns then some (invMixColumns S)
  else none

/-- A code decodes only to the micro-operation that encodes to it (R100). -/
theorem decodeMicroOp_ok {c : BitVec 4} {i : Instr} (h : decodeMicroOp c = .ok i) : encode i = .code c := by
  revert i
  revert c
  have key : ∀ n : Fin 16, ∀ i, decodeMicroOp (BitVec.ofFin n) = .ok i → encode i = .code (BitVec.ofFin n) := by
    intro n
    fin_cases n <;> intro i h <;> first | (cases h; rfl) | cases h
  intro c i h
  exact key c.toFin i h

/-- What a micro-operation does while a block is in the engine: STORE_STATE answers, a transform rewrites the matrix, and
nothing else is enabled (R178). -/
theorem exec_microOp_next {s t : State} {i : Instr} (hi : encode i = .code s.uop)
    (hne : s.op ≠ .idle) (hnk : s.op ≠ .keyExp) (h : exec i s = .next t) :
    (s.uop = codeStoreState ∧ t = (s.respond .ok (fromMatrix s.S).toList).setOp .idle) ∨
    (s.uop ≠ codeStoreState ∧ ∃ S', transformAt s.W s.rnd s.uop s.S = some S' ∧ t = s.setMatrix S') := by
  cases i <;> simp only [encode, Encoded.code.injEq, reduceCtorEq] at hi <;> rw [← hi]
  case ksLoad =>
    simp only [exec, execKsLoad] at h; split at h
    · exact absurd (heldKey_idle ‹_›) hne
    · cases h
  case ksWord => exact absurd (execKsWord_next h).1 hnk
  case ksDone => exact absurd (execKsDone_next h).1 hnk
  case loadState =>
    simp only [exec, execLoadState] at h; split at h
    · exact absurd (heldLoad_idle ‹_›).1 hne
    · cases h
  case addRoundKey =>
    simp only [exec, execAddRoundKey] at h
    split at h
    · rename_i hr
      refine .inr ⟨by decide, addRoundKey s.S (roundKey s.W ⟨s.rnd.toNat, hr⟩), ?_, (Outcome.next.inj h).symm⟩
      simp [transformAt, codeAddRoundKey, hr]
    · cases h
  case storeState => exact .inl ⟨rfl, (execStoreState_next h).2.2⟩
  all_goals exact .inr ⟨by decide, _, rfl, (Outcome.next.inj h).symm⟩

/-- What one transition of the engine can do (R178): wait, answer an error, accept a command, compute a word, finish an
expansion, store a result, or perform a transform and move on. -/
theorem engineStep_next {s u : State} (h : engineStep s = .next u) :
    (s.op = .idle ∧ s.cmd = none ∧ u = s) ∨
    (s.op = .idle ∧ s.cmd ≠ none ∧ ∃ e, u = s.raiseError e) ∨
    (s.op = .idle ∧ ∃ key, s.cmd = some (encodeMessage 0x01 key.toList) ∧ u = startExpansion key s) ∨
    (s.op = .idle ∧ s.keyValid = true ∧ ∃ b, s.cmd = some (encodeMessage 0x02 b.toList) ∧ u = startEncrypt b s) ∨
    (s.op = .idle ∧ s.keyValid = true ∧ ∃ b, s.cmd = some (encodeMessage 0x03 b.toList) ∧ u = startDecrypt b s) ∨
    (s.op = .keyExp ∧ ∃ (hlo : 4 ≤ s.ki.toNat) (hhi : s.ki.toNat < 44),
      u = (s.setTable (s.W.set s.ki.toNat (scheduleWord s.W s.ki.toNat hlo hhi) hhi)).setKi (s.ki + 1)) ∨
    (s.op = .keyExp ∧ s.ki = 44 ∧ u = ((s.setKeyValid true).setOp .idle).respond .ok []) ∨
    ((s.op = .enc ∨ s.op = .dec) ∧ s.uop = codeStoreState ∧
      u = (s.respond .ok (fromMatrix s.S).toList).setOp .idle) ∨
    (s.op = .enc ∧ s.uop ≠ codeStoreState ∧ ∃ S' r k, transformAt s.W s.rnd s.uop s.S = some S' ∧
      nextEncrypt s.rnd s.uop = some (r, k) ∧ u = (s.setMatrix S').setPosition r k) ∨
    (s.op = .dec ∧ s.uop ≠ codeStoreState ∧ ∃ S' r k, transformAt s.W s.rnd s.uop s.S = some S' ∧
      nextDecrypt s.rnd s.uop = some (r, k) ∧ u = (s.setMatrix S').setPosition r k) := by
  have block : ∀ (hop : s.op = .enc ∨ s.op = .dec), fetch s = fetched (decode (.code s.uop)) →
      ∃ t, advance s t = .next u ∧
        ((s.uop = codeStoreState ∧ t = (s.respond .ok (fromMatrix s.S).toList).setOp .idle) ∨
        (s.uop ≠ codeStoreState ∧ ∃ S', transformAt s.W s.rnd s.uop s.S = some S' ∧ t = s.setMatrix S')) := by
    intro hop hf
    have hne : s.op ≠ .idle := by rcases hop with h | h <;> simp [h]
    have hnk : s.op ≠ .keyExp := by rcases hop with h | h <;> simp [h]
    unfold engineStep at h
    rw [hf] at h
    simp only [decode] at h
    rcases hd : decodeMicroOp s.uop with e | i <;> rw [hd] at h
    · cases e <;> simp [fetched] at h
      have hnm : ∀ n : Fin 16, (decodeMicroOp (BitVec.ofFin n)) ≠ .error .notAMessage ∧
          ∀ o, decodeMicroOp (BitVec.ofFin n) ≠ .error (.reservedOpcode o) := by
        intro n; fin_cases n <;> exact ⟨by decide, fun _ => nofun⟩
      exact absurd hd ((hnm s.uop.toFin).2 _)
    · simp only [fetched] at h
      split at h
      · rename_i t ht
        exact ⟨t, h, exec_microOp_next (decodeMicroOp_ok hd) hne hnk ht⟩
      · cases h
      · cases h
  rcases hop : s.op with _ | _ | _ | _
  · unfold engineStep fetch at h
    simp only [hop] at h
    rcases hc : s.cmd with _ | bytes <;> simp only [hc] at h
    · cases h; simp
    · simp only [decode] at h
      rcases hd : decodeMessage bytes with e | i <;> rw [hd] at h
      · cases e <;> simp [fetched] at h
        exact .inr (.inl ⟨rfl, by simp, _, h.symm⟩)
      · obtain ⟨data, -, -, hcase⟩ := decodeMessage_ok hd
        simp only [fetched] at h
        rcases hcase with ⟨rfl, rfl⟩ | ⟨rfl, rfl⟩ | ⟨rfl, rfl⟩ <;> simp only [exec] at h <;> split at h <;>
          first | cases h | skip
        all_goals rename_i t ht
        all_goals
          have hu : u = t := by
            rcases advance_next h with ⟨-, hu⟩ | ⟨ho, -⟩ | ⟨ho, -⟩
            · exact hu
            · simp [hop] at ho
            · simp [hop] at ho
        all_goals subst hu
        · rcases execLoadKey_next ht with ⟨hn, -⟩ | ⟨-, -, rfl⟩ | ⟨key, -, rfl, rfl⟩
          · exact absurd hop hn
          · exact .inr (.inl ⟨rfl, by simp, _, rfl⟩)
          · exact .inr (.inr (.inl ⟨rfl, key, rfl, rfl⟩))
        · rcases acceptBlock_next ht with ⟨hn, -⟩ | ⟨-, -, rfl⟩ | ⟨-, -, -, rfl⟩ | ⟨b, -, rfl, hk, rfl⟩
          · exact absurd hop hn
          · exact .inr (.inl ⟨rfl, by simp, _, rfl⟩)
          · exact .inr (.inl ⟨rfl, by simp, _, rfl⟩)
          · exact .inr (.inr (.inr (.inl ⟨rfl, hk, b, rfl, rfl⟩)))
        · rcases acceptBlock_next ht with ⟨hn, -⟩ | ⟨-, -, rfl⟩ | ⟨-, -, -, rfl⟩ | ⟨b, -, rfl, hk, rfl⟩
          · exact absurd hop hn
          · exact .inr (.inl ⟨rfl, by simp, _, rfl⟩)
          · exact .inr (.inl ⟨rfl, by simp, _, rfl⟩)
          · exact .inr (.inr (.inr (.inr (.inl ⟨rfl, hk, b, rfl, rfl⟩))))
  · unfold engineStep fetch at h
    simp only [hop] at h
    split at h <;> rename_i hf
    all_goals split at hf <;> cases hf
    all_goals simp only [exec] at h
    all_goals split at h <;> first | cases h | skip
    all_goals rename_i t ht
    all_goals
      have hu : u = t := by
        rcases advance_next h with ⟨-, hu⟩ | ⟨ho, -⟩ | ⟨ho, -⟩
        · exact hu
        · simp [hop] at ho
        · simp [hop] at ho
    all_goals subst hu
    · obtain ⟨-, hlo, hhi, rfl⟩ := execKsWord_next ht
      exact .inr (.inr (.inr (.inr (.inr (.inl ⟨rfl, hlo, hhi, rfl⟩)))))
    · obtain ⟨-, hk, rfl⟩ := execKsDone_next ht
      exact .inr (.inr (.inr (.inr (.inr (.inr (.inl ⟨rfl, hk, rfl⟩))))))
  · obtain ⟨t, ha, ⟨hu, rfl⟩ | ⟨hu, S', hS, rfl⟩⟩ := block (.inl hop) (by simp only [fetch, hop])
    · rcases advance_next ha with ⟨-, rfl⟩ | ⟨-, hn, -⟩ | ⟨-, hn, -⟩
      · simp [hu]
      · exact absurd hu hn
      · exact absurd hu hn
    · rcases advance_next ha with ⟨ho | ho | ho, -⟩ | ⟨-, -, r, k, hn, rfl⟩ | ⟨ho, -⟩
      · simp [hop] at ho
      · simp [hop] at ho
      · exact absurd ho hu
      · simp [hu, hS, hn]
      · simp [hop] at ho
  · obtain ⟨t, ha, ⟨hu, rfl⟩ | ⟨hu, S', hS, rfl⟩⟩ := block (.inr hop) (by simp only [fetch, hop])
    · rcases advance_next ha with ⟨-, rfl⟩ | ⟨-, hn, -⟩ | ⟨-, hn, -⟩
      · simp [hu]
      · exact absurd hu hn
      · exact absurd hu hn
    · rcases advance_next ha with ⟨ho | ho | ho, -⟩ | ⟨ho, -⟩ | ⟨-, -, r, k, hn, rfl⟩
      · simp [hop] at ho
      · simp [hop] at ho
      · exact absurd ho hu
      · simp [hop] at ho
      · simp [hu, hS, hn]

/-- Whose turn it is (R184). -/
theorem hostTurn_cases (s : State) :
    (s.plan = [] ∧ hostTurn s = .engine s) ∨
    (∃ rest, s.plan = .engineTurn :: rest ∧ hostTurn s = .engine (s.setPlan rest)) ∨
    (∃ rest, s.plan = .readStatus :: rest ∧ hostTurn s = .host ((s.setPlan rest).readStatus)) ∨
    (∃ rest, s.plan = .assertReset :: rest ∧ hostTurn s = .host ((s.setPlan rest).resetEvent)) ∨
    (∃ rest, s.plan = .readResponse :: rest ∧ s.rspRead < s.rsp.length ∧
      hostTurn s = .host ((s.setPlan rest).readResponse)) ∨
    (∃ rest, s.plan = .readResponse :: rest ∧ ¬ s.rspRead < s.rsp.length ∧ hostTurn s = .engine s) ∨
    (∃ bytes rest, s.plan = .offer bytes :: rest ∧ s.cmd = none ∧
      hostTurn s = .host ((s.setPlan rest).setCmd (some bytes))) ∨
    (∃ bytes rest m, s.plan = .offer bytes :: rest ∧ s.cmd = some m ∧ hostTurn s = .engine s) := by
  unfold hostTurn
  rcases hp : s.plan with _ | ⟨a, rest⟩
  · simp
  · cases a with
    | offer bytes => cases hc : s.cmd <;> simp
    | readResponse => by_cases hr : s.rspRead < s.rsp.length <;> simp [hr]
    | readStatus => simp
    | assertReset => simp
    | engineTurn => simp

/-- The state an engine turn starts from: `s`, or `s` with an engine turn at the head of its plan taken off. -/
def EngineFrom (s u : State) : Prop :=
  u = s ∨ ∃ rest, s.plan = .engineTurn :: rest ∧ u = s.setPlan rest

/-- What one step can do: one of the host's four actions, or one transition of the engine (R184). -/
theorem step_next {s t : State} (h : step s = .next t) :
    (∃ rest, s.plan = .readStatus :: rest ∧ t = (s.setPlan rest).readStatus) ∨
    (∃ rest, s.plan = .assertReset :: rest ∧ t = (s.setPlan rest).resetEvent) ∨
    (∃ rest, s.plan = .readResponse :: rest ∧ s.rspRead < s.rsp.length ∧ t = (s.setPlan rest).readResponse) ∨
    (∃ bytes rest, s.plan = .offer bytes :: rest ∧ s.cmd = none ∧ t = (s.setPlan rest).setCmd (some bytes)) ∨
    (∃ u, EngineFrom s u ∧ hostTurn s = .engine u ∧ engineStep u = .next t) := by
  unfold step at h
  rcases hostTurn_cases s with ⟨hp, ht⟩ | ⟨r, hp, ht⟩ | ⟨r, hp, ht⟩ | ⟨r, hp, ht⟩ | ⟨r, hp, hr, ht⟩ | ⟨r, hp, -, ht⟩ |
    ⟨b, r, hp, hc, ht⟩ | ⟨b, r, m, hp, -, ht⟩ <;> rw [ht] at h <;> simp only at h
  · exact .inr (.inr (.inr (.inr ⟨s, .inl rfl, ht, h⟩)))
  · exact .inr (.inr (.inr (.inr ⟨_, .inr ⟨r, hp, rfl⟩, ht, h⟩)))
  · exact .inl ⟨r, hp, (Outcome.next.inj h).symm⟩
  · exact .inr (.inl ⟨r, hp, (Outcome.next.inj h).symm⟩)
  · exact .inr (.inr (.inl ⟨r, hp, hr, (Outcome.next.inj h).symm⟩))
  · exact .inr (.inr (.inr (.inr ⟨s, .inl rfl, ht, h⟩)))
  · exact .inr (.inr (.inr (.inl ⟨b, r, hp, hc, (Outcome.next.inj h).symm⟩)))
  · exact .inr (.inr (.inr (.inr ⟨s, .inl rfl, ht, h⟩)))

/-- An engine turn starts from the engine and ports of `s`. -/
theorem EngineFrom.fields {s u : State} (h : EngineFrom s u) :
    u.W = s.W ∧ u.S = s.S ∧ u.keyValid = s.keyValid ∧ u.op = s.op ∧ u.rnd = s.rnd ∧ u.uop = s.uop ∧ u.ki = s.ki ∧
      u.cmd = s.cmd ∧ u.rsp = s.rsp ∧ u.rspRead = s.rspRead ∧ u.statusReads = s.statusReads ∧ u.draws = s.draws := by
  rcases h with rfl | ⟨rest, -, rfl⟩ <;> simp

end Sys2Proof.Machine
end

