-- ==== Sys2Proof/Laws/Sequencer.lean ====
section
/-!
SUPPORT. The sequencer's tables (42_cipher_datapath.md R176, R177): the next position stays on the walk, every position on
the walk but the last has one, and the micro-operation there has its operand in range.
-/

namespace Sys2Proof.Machine

/-- The next position of an encryption is on its walk (R176). -/
theorem nextEncrypt_onWalk {r u r' k : BitVec 4} (h : nextEncrypt r u = some (r', k)) : onEncryptWalk r' k := by
  have hcmp : 1 ≤ r → r ≤ 9 → 1 ≤ r + 1 ∧ r + 1 ≤ 10 := by
    revert r; simp only [BitVec.le_def]; intro r _; bv_omega
  unfold nextEncrypt at h
  unfold onEncryptWalk
  repeat' split at h
  all_goals simp only [Option.some.injEq, Prod.mk.injEq, reduceCtorEq] at h
  all_goals obtain ⟨rfl, rfl⟩ := h
  all_goals simp_all [codeAddRoundKey, codeSubBytes, codeShiftRows, codeMixColumns, codeStoreState]
  all_goals bv_omega

/-- The next position of a decryption is on its walk (R177). -/
theorem nextDecrypt_onWalk {r u r' k : BitVec 4} (h : nextDecrypt r u = some (r', k)) : onDecryptWalk r' k := by
  unfold nextDecrypt at h
  unfold onDecryptWalk
  repeat' split at h
  all_goals simp only [Option.some.injEq, Prod.mk.injEq, reduceCtorEq] at h
  all_goals obtain ⟨rfl, rfl⟩ := h
  all_goals simp_all [codeAddRoundKey, codeInvSubBytes, codeInvShiftRows, codeInvMixColumns, codeStoreState]
  all_goals bv_omega

/-- A fact about all pairs of four-bit fields is a fact about all pairs of numbers below 16. -/
theorem forall_position {P : BitVec 4 → BitVec 4 → Prop}
    (h : ∀ m n : Fin 16, P (BitVec.ofFin (w := 4) m) (BitVec.ofFin (w := 4) n)) (r u : BitVec 4) : P r u :=
  h r.toFin u.toFin

/-- The codes with a transform have one whenever the round number is in range (R178). -/
theorem transformAt_isSome {r u : BitVec 4} (hr : r.toNat < 11)
    (hu : u = codeAddRoundKey ∨ u = codeSubBytes ∨ u = codeShiftRows ∨ u = codeMixColumns ∨ u = codeInvSubBytes ∨
      u = codeInvShiftRows ∨ u = codeInvMixColumns) (W : Table) (S : StateMatrix) :
    (transformAt W r u S).isSome := by
  rcases hu with rfl | rfl | rfl | rfl | rfl | rfl | rfl <;> first | rfl | simp [transformAt, hr]

/-- Every position of an encryption but the last has a next one, and its transform is defined (R176, R178). -/
theorem onEncryptWalk_goes {r u : BitVec 4} (h : onEncryptWalk r u) (hu : u ≠ codeStoreState) (W : Table)
    (S : StateMatrix) : (nextEncrypt r u).isSome ∧ (transformAt W r u S).isSome := by
  have key := forall_position (P := fun r u => onEncryptWalk r u → u ≠ codeStoreState →
    (nextEncrypt r u).isSome ∧ r.toNat < 11 ∧ (u = codeAddRoundKey ∨ u = codeSubBytes ∨ u = codeShiftRows ∨
      u = codeMixColumns)) (by unfold onEncryptWalk; decide) r u h hu
  exact ⟨key.1, transformAt_isSome key.2.1 (by tauto) W S⟩

/-- Every position of a decryption but the last has a next one, and its transform is defined (R177, R178). -/
theorem onDecryptWalk_goes {r u : BitVec 4} (h : onDecryptWalk r u) (hu : u ≠ codeStoreState) (W : Table)
    (S : StateMatrix) : (nextDecrypt r u).isSome ∧ (transformAt W r u S).isSome := by
  have key := forall_position (P := fun r u => onDecryptWalk r u → u ≠ codeStoreState →
    (nextDecrypt r u).isSome ∧ r.toNat < 11 ∧ (u = codeAddRoundKey ∨ u = codeInvSubBytes ∨ u = codeInvShiftRows ∨
      u = codeInvMixColumns)) (by unfold onDecryptWalk; decide) r u h hu
  exact ⟨key.1, transformAt_isSome key.2.1 (by tauto) W S⟩

end Sys2Proof.Machine
end

