-- ==== Sys2Proof/Tests/Slice0.lean ====
section
/-!
SUPPORT. The model's own tests. Expected values are the spec's printed ones (95_test_vectors.md and the examples inside the
rules), and each test names its source. The theorems named witness show, for a statement of
Certificates/Slice0/Obligations.lean that has hypotheses, a concrete state and operands that meet them together.
-/

namespace Sys2Proof.Tests

open Sys2Proof.Machine Host

-- One theorem after another: the kernel evaluations below would otherwise wait on one another in too many threads.
set_option Elab.async false

/-! ## Helpers -/

/-- The bytes of a 128-bit number, byte 0 first. -/
def bytes (x : BitVec 128) : List Byte := (intToBytes x).toList

/-- The matrix of a 128-bit number. -/
def matrix (x : BitVec 128) : StateMatrix := toMatrix (intToBytes x)

/-- The FIPS key of 95_test_vectors.md. -/
def fipsKey : Block := intToBytes 0x2B7E151628AED2A6ABF7158809CF4F3C

/-- The index block of 95_test_vectors.md: byte `i` is `i`. -/
def indexBlock : BitVec 128 := 0x000102030405060708090A0B0C0D0E0F

/-- `n` zero bytes. -/
def zeros (n : Nat) : List Byte := List.replicate n 0

/-- An idle engine with a command held. -/
def holding (keyValid : Bool) (bytes : List Byte) : State :=
  { State.reset with keyValid := keyValid, cmd := some bytes }

/-- An engine in key expansion at word `k` of the all-zero key's table of zeros. -/
def expanding (k : BitVec 6) : State := { State.reset with op := .keyExp, ki := k }

/-- An engine with a block at a position, under the table of a key. -/
def cipher (o : Op) (r u : BitVec 4) (S : StateMatrix) (key : Block) : State :=
  { State.reset with op := o, rnd := r, uop := u, S := S, W := expand key, keyValid := true }

/-- An idle engine with the table of the all-zero key. -/
def loaded : State := { State.reset with W := expand (intToBytes 0), keyValid := true }

/-- A field of the next state an outcome gives. -/
def after {α : Type} (f : State → α) : Outcome State Fault Refusal → Option α
  | .next t => some (f t)
  | .fault _ => none
  | .refused _ => none

/-! ## Well-formedness: a payload of 255 bytes can be sent, one of 256 cannot (R91) -/

theorem test_wellFormed_loadKey : (Instr.loadKey (zeros 255)).wellFormed = true ∧
    (Instr.loadKey (zeros 256)).wellFormed = false := by decide +kernel
theorem test_wellFormed_encrypt : (Instr.encrypt (zeros 255)).wellFormed = true ∧
    (Instr.encrypt (zeros 256)).wellFormed = false := by decide +kernel
theorem test_wellFormed_decrypt : (Instr.decrypt (zeros 255)).wellFormed = true ∧
    (Instr.decrypt (zeros 256)).wellFormed = false := by decide +kernel

/-! ## Decoding: words written out from the patterns of R93 and R100 -/

theorem test_decode_loadKey : decode (.message [0b00000001, 0b00000010, 0xAB, 0xCD]) = .ok (.loadKey [0xAB, 0xCD]) := by
  decide
theorem test_decode_encrypt : decode (.message [0b00000010, 0b00000001, 0x7F]) = .ok (.encrypt [0x7F]) := by decide
theorem test_decode_decrypt : decode (.message [0b00000011, 0b00000000]) = .ok (.decrypt []) := by decide
theorem test_decode_ksLoad : decode (.code 0b0000) = .ok .ksLoad := by decide
theorem test_decode_ksWord : decode (.code 0b0001) = .ok .ksWord := by decide
theorem test_decode_ksDone : decode (.code 0b0010) = .ok .ksDone := by decide
theorem test_decode_loadState : decode (.code 0b0011) = .ok .loadState := by decide
theorem test_decode_addRoundKey : decode (.code 0b0100) = .ok .addRoundKey := by decide
theorem test_decode_subBytes : decode (.code 0b0101) = .ok .subBytes := by decide
theorem test_decode_shiftRows : decode (.code 0b0110) = .ok .shiftRows := by decide
theorem test_decode_mixColumns : decode (.code 0b0111) = .ok .mixColumns := by decide
theorem test_decode_invSubBytes : decode (.code 0b1000) = .ok .invSubBytes := by decide
theorem test_decode_invShiftRows : decode (.code 0b1001) = .ok .invShiftRows := by decide
theorem test_decode_invMixColumns : decode (.code 0b1010) = .ok .invMixColumns := by decide
theorem test_decode_storeState : decode (.code 0b1011) = .ok .storeState := by decide
/-- A header that promises two payload bytes and brings one is no message (R94). -/
theorem test_decode_short : decode (.message [0x01, 0x02, 0xAB]) = .error .notAMessage := by decide
/-- The opcode table's numbering: header bits 15 to 8 are OPC, 7 to 0 LEN, and the payload follows in 16-bit words. -/
theorem test_tableWord_command : decodeTableWord 16 0x0102 = some (.loadKey [0x00, 0x00]) ∧
    decodeTableWord 32 0xABCD0202 = some (.encrypt [0xAB, 0xCD]) ∧ decodeTableWord 16 0x7F00 = none := by decide
/-- A micro-operation's four bits (R100), in one byte. -/
theorem test_tableWord_code : decodeTableWord 8 0x05 = some .subBytes ∧ decodeTableWord 8 0x0C = none ∧
    decodeTableWord 8 0x15 = none := by decide

/-! ## Layout, arithmetic and tables -/

/-- 20_memory.md R62, example. -/
theorem test_intToBytes : bytes 0x3243F6A8885A308D313198A2E0370734 =
    [0x32, 0x43, 0xF6, 0xA8, 0x88, 0x5A, 0x30, 0x8D, 0x31, 0x31, 0x98, 0xA2, 0xE0, 0x37, 0x07, 0x34] := by decide +kernel
/-- 95_test_vectors.md 3.1, the index block as a matrix, row 1. -/
theorem test_toMatrix : (List.finRange 4).map ((matrix indexBlock).get 1) = [0x01, 0x05, 0x09, 0x0D] := by decide +kernel
/-- 95_test_vectors.md 3.2. -/
theorem test_xtime : [0x00, 0x80, 0x7F, 0xFF, 0x8D].map xtime = [0x00, 0x1B, 0xFE, 0xE5, 0x01] := by decide
/-- 95_test_vectors.md 3.2, column 57 and the general helper. -/
theorem test_gmul : [2, 3, 9, 11, 13, 14, 0x13, 0x83].map (gmul · 0x57) =
    [0xAE, 0xF9, 0xD9, 0x77, 0x9E, 0x67, 0xFE, 0xC1] := by decide +kernel
/-- 95_test_vectors.md 3.3. -/
theorem test_tables : [0x00, 0x01, 0x09, 0x10, 0x52, 0x53, 0xCF, 0xFF].map sbox =
      [0x63, 0x7C, 0x01, 0xCA, 0x00, 0xED, 0x8A, 0x16] ∧
    [0x00, 0x01, 0x09, 0x10, 0x52, 0x53, 0xCF, 0xFF].map invSbox =
      [0x52, 0x09, 0x40, 0x7C, 0x48, 0x50, 0x5F, 0x7D] := by decide +kernel
/-- 95_test_vectors.md 3.5. -/
theorem test_temp : temp (Word.ofBits 0x09CF4F3C) 1 = Word.ofBits 0x8B84EB01 ∧
    temp (Word.ofBits 0x575C006E) 10 = Word.ofBits 0x7C639F5B := by decide +kernel
/-- 95_test_vectors.md 4, FIPS key, words 4 and 43. -/
theorem test_expand : (expand fipsKey)[4] = Word.ofBits 0xA0FAFE17 ∧ (expand fipsKey)[43] = Word.ofBits 0xB6630CA6 := by
  decide +kernel

/-! ## Instructions -/

/-- 95_test_vectors.md 3.6: LEN = 15 is InvalidKeyLength, `01 00`, and the key stays valid. -/
theorem test_loadKey_badLength : after (fun t => (t.rsp.map Response.bytes, t.keyValid))
    (exec (.loadKey (zeros 15)) (holding true [])) = some ([[0x01, 0x00]], true) := by decide +kernel
/-- 40_key_schedule.md R125, example. -/
theorem test_loadKey_accept : after (fun t => (t.W[0], t.W[3], t.ki, t.status))
    (exec (.loadKey fipsKey.toList) (holding true [])) =
      some (Word.ofBits 0x2B7E1516, Word.ofBits 0x09CF4F3C, 4, 0x02) := by decide +kernel
/-- 95_test_vectors.md 3.6: a wrong length is reported before a missing key. -/
theorem test_encrypt_badLength : after (fun t => t.rsp.map Response.bytes)
    (exec (.encrypt (zeros 15)) (holding false [])) = some [[0x02, 0x00]] := by decide +kernel
/-- 42_cipher_datapath.md R174, example. -/
theorem test_encrypt_accept : after (fun t => (t.S.get 1 0, t.S.get 0 1, t.rnd, t.status))
    (exec (.encrypt (bytes 0x3243F6A8885A308D313198A2E0370734)) (holding true [])) =
      some (0x43, 0x88, 0, 0x03) := by decide +kernel
/-- 95_test_vectors.md 3.6: DECRYPT with no key is UninitializedKey. -/
theorem test_decrypt_noKey : after (fun t => t.rsp.map Response.bytes)
    (exec (.decrypt (zeros 16)) (holding false [])) = some [[0x03, 0x00]] := by decide +kernel
/-- 42_cipher_datapath.md R174: DECRYPT starts at round 10 with ADD_ROUND_KEY. -/
theorem test_decrypt_accept : after (fun t => (t.op, t.rnd, t.uop)) (exec (.decrypt (zeros 16)) (holding true [])) =
    some (.dec, 10, 0x4) := by decide +kernel
/-- 40_key_schedule.md R125, example, through the held message. -/
theorem test_ksLoad : after (fun t => (t.W[1], t.keyValid, t.ki))
    (exec .ksLoad (holding true ([0x01, 0x10] ++ fipsKey.toList))) =
      some (Word.ofBits 0x28AED2A6, false, 4) := by decide +kernel
/-- 40_key_schedule.md R126, example: the first and second words under the FIPS key. -/
theorem test_ksWord : after (fun t => (t.W[4], t.ki))
      (exec .ksWord { expanding 4 with W := loadKeyWords State.reset.W fipsKey }) = some (Word.ofBits 0xA0FAFE17, 5) ∧
    after (fun t => (t.W[5], t.ki)) (exec .ksWord { expanding 5 with W := expand fipsKey }) =
      some (Word.ofBits 0x88542CB1, 6) := by decide +kernel
/-- 40_key_schedule.md R127, example. -/
theorem test_ksDone : after (fun t => (t.status, t.rsp.map Response.bytes)) (exec .ksDone (expanding 44)) =
    some (0x01, [[0x00, 0x00]]) := by decide +kernel
/-- 42_cipher_datapath.md R174, example, through the held message. -/
theorem test_loadState : after (fun t => (t.S.get 3 3, t.S.get 0 1, t.op))
    (exec .loadState (holding true ([0x02, 0x10] ++ bytes 0x3243F6A8885A308D313198A2E0370734))) =
      some (0x34, 0x88, .enc) := by decide +kernel
/-- 41_round_transforms.md R145, example, and 95_test_vectors.md 3.4 with round key 1. -/
theorem test_addRoundKey : after State.S
      (exec .addRoundKey (cipher .enc 0 0x4 (matrix 0x3243F6A8885A308D313198A2E0370734) fipsKey)) =
        some (matrix 0x193DE3BEA0F4E22B9AC68D2AE9F84808) ∧
    after State.S (exec .addRoundKey (cipher .enc 1 0x4 (matrix indexBlock) fipsKey)) =
      some (matrix 0xA0FBFC148C512AB62BAA33322661780A) := by decide +kernel
/-- 95_test_vectors.md 3.4. -/
theorem test_subBytes : subBytes (matrix indexBlock) = matrix 0x637C777BF26B6FC53001672BFED7AB76 := by decide +kernel
/-- 95_test_vectors.md 3.4. -/
theorem test_invSubBytes : invSubBytes (matrix indexBlock) = matrix 0x52096AD53036A538BF40A39E81F3D7FB := by
  decide +kernel
/-- 95_test_vectors.md 3.4. -/
theorem test_shiftRows : shiftRows (matrix indexBlock) = matrix 0x00050A0F04090E03080D02070C01060B := by decide +kernel
/-- 95_test_vectors.md 3.4. -/
theorem test_invShiftRows : invShiftRows (matrix indexBlock) = matrix 0x000D0A0704010E0B0805020F0C090603 := by
  decide +kernel
/-- 95_test_vectors.md 3.4, and the column `DB 13 53 45`. -/
theorem test_mixColumns : mixColumns (matrix indexBlock) = matrix 0x02070005060304010A0F080D0E0B0C09 ∧
    mixColumn (Word.ofBits 0xDB135345) = Word.ofBits 0x8E4DA1BC := by decide +kernel
/-- 95_test_vectors.md 3.4, and the column `D4 BF 5D 30`. -/
theorem test_invMixColumns : invMixColumns (matrix indexBlock) = matrix 0x0A0F080D0E0B0C090207000506030401 ∧
    invMixColumn (Word.ofBits 0xD4BF5D30) = Word.ofBits 0x265CA3DF := by decide +kernel
/-- 42_cipher_datapath.md R175, example. -/
theorem test_storeState : after (fun t => (t.rsp.map Response.bytes, t.op))
    (exec .storeState (cipher .enc 10 0xB (matrix 0x3925841D02DC09FBDC118597196A0B32) fipsKey)) =
      some ([[0x00, 0x10, 0x39, 0x25, 0x84, 0x1D, 0x02, 0xDC, 0x09, 0xFB, 0xDC, 0x11, 0x85, 0x97, 0x19, 0x6A, 0x0B, 0x32]],
        .idle) := by decide +kernel
/-- The source's vector V1 (95_test_vectors.md section 2), both directions, on the cipher functions. -/
theorem test_vector1 :
    (encrypt (intToBytes 0x3243F6A8885A308D313198A2E0370734) (expand fipsKey)).toList =
      bytes 0x3925841D02DC09FBDC118597196A0B32 ∧
    (decrypt (intToBytes 0x3925841D02DC09FBDC118597196A0B32) (expand fipsKey)).toList =
      bytes 0x3243F6A8885A308D313198A2E0370734 := by decide +kernel
/-- The source's vector V3 (95_test_vectors.md section 2). -/
theorem test_vector3 : (encrypt (intToBytes 0) (expand (intToBytes 0))).toList =
    bytes 0x66E94BD4EF8A2C3B884CFA59CA342B2E := by decide +kernel

/-! ## The step -/

/-- A reserved code, `7F 03`, is answered `04 00` (95_test_vectors.md 3.6). -/
theorem test_step_reserved : after (fun t => t.rsp.map Response.bytes)
    (step (holding false [0x7F, 0x03, 0x00, 0x00, 0x00])) = some [[0x04, 0x00]] := by decide +kernel
/-- 95_test_vectors.md P4, ENCRYPT steps 4 and 5: the transform and the next position. -/
theorem test_step_cipher : after (fun t => (t.S, t.rnd, t.uop))
      (step (cipher .enc 1 0x7 (matrix 0xD4BF5D30E0B452AEB84111F11E2798E5) fipsKey)) =
        some (matrix 0x046681E5E0CB199A48F8D37A2806264C, 1, 0x4) ∧
    after (fun t => (t.S, t.rnd, t.uop))
      (step (cipher .enc 1 0x4 (matrix 0x046681E5E0CB199A48F8D37A2806264C) fipsKey)) =
        some (matrix 0xA49C7FF2689F352B6B5BEA43026A5049, 2, 0x5) := by decide +kernel
/-- 95_test_vectors.md P4: STATUS reads 03 during an ENCRYPT and 00 after a reset. -/
theorem test_step_status : after (fun t => t.statusReads)
      (step { cipher .enc 1 0x4 StateMatrix.zero fipsKey with plan := [.readStatus] }) = some [0x03] ∧
    after State.status (step { cipher .enc 1 0x4 StateMatrix.zero fipsKey with plan := [.assertReset] }) = some 0x00 := by
  decide +kernel
/-- A word placed where the step fetches is the word the step runs: a command header with LEN = 0, and a micro-operation. -/
theorem test_fetchWord : after (fun t => t.rsp.map Response.bytes) (step (State.reset.withFetchWord 16 0x0100)) =
      some [[0x01, 0x00]] ∧
    after (fun t => (t.S.get 2 1, t.rnd, t.uop)) (step (State.reset.withFetchWord 8 0x5)) = some (0x63, 1, 0x6) := by
  decide +kernel

/-! ## Witnesses: encodings and functions -/

theorem witness_DecodeAndEncodeAgree : (Instr.encrypt (zeros 255)).wellFormed = true ∧
    decode (.message ([0x03, 0xFF] ++ zeros 255)) = .ok (.decrypt (zeros 255)) ∧ decode (.code 0x0) = .ok .ksLoad := by
  decide +kernel
theorem witness_ReservedEncodingsRejected : (zeros 255).length ≤ 255 ∧
    (∀ opc ∈ ([0x00, 0x04, 0xFF] : List Byte), opc ≠ 0x01 ∧ opc ≠ 0x02 ∧ opc ≠ 0x03) ∧
    (0xC : BitVec 4) ≤ 0xC ∧ (0xC : BitVec 4) ≤ 0xF := by decide +kernel
theorem witness_BlockFormsAreInverse : 0 < 16 ∧ 15 < 16 := by decide
theorem witness_XtimeDoubles : xtime 0x80 = xtime 0x80 := rfl
theorem witness_RconEntriesAreDoublings : ∀ j ∈ ([1, 9] : List (Fin 15)), 1 ≤ j.val ∧ j.val ≤ 9 ∧ j.val + 1 < 15 := by
  decide
theorem witness_Sbox : (0x00 : Byte) = 0 ∧ (0x01 : Byte) ≠ 0 ∧ (7 : Nat) < 8 := by decide
/-- Every clause of the recurrence at the ends of its range. -/
theorem witness_ExpandFollowsTheRecurrence : (3 < 4 ∧ (∀ i ∈ [4, 40], 4 ≤ i ∧ i < 44 ∧ i % 4 = 0)) ∧
    ∀ i ∈ [5, 43], 4 ≤ i ∧ i < 44 ∧ i % 4 ≠ 0 := by decide
theorem witness_ExpandKeepsTheKey : expand fipsKey = expand fipsKey := rfl

/-! ## Witnesses: instructions -/

theorem witness_LoadKeyAccept : (holding true []).op = .idle ∧ (zeros 16).length = 16 ∧
    ∀ n ∈ [0, 15, 17, 255], (zeros n).length ≠ 16 := by decide +kernel
theorem witness_KsLoadOnAHeldLoadKey : (holding false (encodeMessage 0x01 (zeros 16))).op = .idle ∧
    (holding false (encodeMessage 0x01 (zeros 16))).cmd = some (encodeMessage 0x01 (zeros 16)) ∧
    (zeros 16).length = 16 := by decide
theorem witness_KsWordWritesTheNextWord : ∀ i ∈ [4, 5, 40, 43], 4 ≤ i ∧ i < 44 ∧
    (expanding (BitVec.ofNat 6 i)).op = .keyExp ∧ (expanding (BitVec.ofNat 6 i)).ki = BitVec.ofNat 6 i := by decide
theorem witness_KsDoneFinishes : (expanding 44).op = .keyExp ∧ (expanding 44).ki = 44 := by decide
theorem witness_AddRoundKeyXorsTheRoundKey : ∀ n ∈ [0, 10], n ≤ 10 ∧
    ({ State.reset with rnd := BitVec.ofNat 4 n } : State).rnd = BitVec.ofNat 4 n := by decide
theorem witness_RowRotations : (0 : Fin 4).val = ((3 : Fin 4).val + (1 : Fin 4).val) % 4 ∧
    (3 : Fin 4).val = ((0 : Fin 4).val + 4 - (1 : Fin 4).val) % 4 ∧ 15 < 16 := by decide
theorem witness_BlockCommandAccept : (holding false []).op = .idle ∧ (holding true []).op = .idle ∧
    (∀ n ∈ [0, 15, 17, 255], (zeros n).length ≠ 16) ∧ (zeros 16).length = 16 ∧
    (holding false []).keyValid = false ∧ (holding true []).keyValid = true ∧ 15 < 16 := by decide +kernel
theorem witness_LoadStateOnAHeldBlockCommand : ∀ opc ∈ ([0x02, 0x03] : List Byte),
    (holding true (encodeMessage opc (zeros 16))).op = .idle ∧
    (holding true (encodeMessage opc (zeros 16))).keyValid = true ∧ (zeros 16).length = 16 ∧
    (holding true (encodeMessage opc (zeros 16))).cmd = some (encodeMessage opc (zeros 16)) := by decide
/-- An engine with a block at a position; the table is of no account. -/
def atPos (o : Op) (r u : BitVec 4) : State := { State.reset with op := o, rnd := r, uop := u, keyValid := true }
theorem witness_StoreStateAnswersTheBlock : (atPos .enc 10 0xB).op = .enc ∧ (atPos .enc 10 0xB).uop = codeStoreState ∧
    (atPos .dec 0 0xB).op = .dec ∧ (atPos .dec 0 0xB).uop = codeStoreState := by decide

/-! ## Witnesses: the step -/

/-- Every clause: an empty plan and an engine turn; a held command; KS_WORD and KS_DONE at the ends of `KI`; a transform
that moves on, the last micro-operation, a position off the walk, and a micro-operation that faults. -/
theorem witness_StepRunsTheDecodedInstruction :
    hostTurn State.reset = .engine State.reset ∧
    hostTurn { State.reset with plan := [.engineTurn] } = .engine State.reset ∧
    (hostTurn (holding false [0x03, 0x00]) = .engine (holding false [0x03, 0x00]) ∧
      decode (.message [0x03, 0x00]) = .ok (.decrypt [])) ∧
    ((expanding 43).op = .keyExp ∧ (expanding 43).ki ≤ 43 ∧ 43 < (expanding 44).ki) ∧
    (decode (.code (atPos .enc 1 0x5).uop) = .ok .subBytes ∧ nextEncrypt 1 0x5 = some (1, 0x6)) ∧
    (decode (.code (atPos .dec 10 0x8).uop) = .ok .invSubBytes ∧ nextDecrypt 10 0x8 = some (9, 0x4)) ∧
    (decode (.code (atPos .enc 10 0xB).uop) = .ok .storeState ∧
      after State.op (exec .storeState (atPos .enc 10 0xB)) = some .idle) ∧
    (decode (.code (atPos .enc 0 0x5).uop) = .ok .subBytes ∧ nextEncrypt 0 0x5 = none) ∧
    (decode (.code (atPos .enc 11 0x4).uop) = .ok .addRoundKey ∧
      after State.op (exec .addRoundKey (atPos .enc 11 0x4)) = none) := by decide +kernel
/-- Every row of the table at the ends of its range. -/
theorem witness_EncryptWalkFollowsTheTable : ∀ p ∈ ([(0, 0x4), (1, 0x5), (10, 0x5), (1, 0x6), (9, 0x6), (10, 0x6), (1, 0x7),
    (9, 0x7), (1, 0x4), (9, 0x4), (10, 0x4), (10, 0xB)] : List (BitVec 4 × BitVec 4)),
    (atPos .enc p.1 p.2).plan = [] ∧ (atPos .enc p.1 p.2).op = .enc ∧ onEncryptWalk p.1 p.2 := by
  unfold onEncryptWalk; decide +kernel
/-- Every row of the table at the ends of its range. -/
theorem witness_DecryptWalkFollowsTheTable : ∀ p ∈ ([(10, 0x4), (9, 0x4), (1, 0x4), (9, 0xA), (1, 0xA), (10, 0x9), (1, 0x9),
    (10, 0x8), (1, 0x8), (0, 0x4), (0, 0xB)] : List (BitVec 4 × BitVec 4)),
    (atPos .dec p.1 p.2).plan = [] ∧ (atPos .dec p.1 p.2).op = .dec ∧ onDecryptWalk p.1 p.2 := by
  unfold onDecryptWalk; decide +kernel
theorem witness_ReservedOpcodeAnswered : ∀ opc ∈ ([0x00, 0x04, 0xFF] : List Byte),
    hostTurn (holding true (encodeMessage opc (zeros 255))) = .engine (holding true (encodeMessage opc (zeros 255))) ∧
    (holding true (encodeMessage opc (zeros 255))).op = .idle ∧ (zeros 255).length ≤ 255 ∧
    opc ≠ 0x01 ∧ opc ≠ 0x02 ∧ opc ≠ 0x03 := by decide +kernel
theorem witness_BusyEngineTakesNoCommand : (expanding 4).op ≠ .idle ∧ (atPos .dec 10 0x4).op ≠ .idle := by decide
/-- The last step of an expansion, with a command held. -/
def doneHolding : State := { expanding 44 with cmd := some [0x02, 0x00] }
theorem witness_HeldCommandStaysHeld : doneHolding.op ≠ .idle ∧ doneHolding.cmd = some [0x02, 0x00] ∧
    (∀ rest, doneHolding.plan ≠ .assertReset :: rest) ∧
    step doneHolding = .next { doneHolding with op := .idle, keyValid := true, rsp := [⟨.ok, []⟩] } :=
  ⟨by decide, rfl, fun _ => nofun, rfl⟩
theorem witness_IdleEngineWaits : State.reset.plan = [] ∧ State.reset.op = .idle ∧ State.reset.cmd = none := by decide
/-- An idle engine with nothing held, or with a command too short for a micro-operation to be performed in its accept. -/
theorem short_held (opc : Byte) : ∀ data, data.length = 16 →
    (holding true [0x01, 0x00]).cmd ≠ some (encodeMessage opc data) := by
  intro data h e
  have := congrArg (Option.map List.length) e
  simp [holding, encodeMessage, h] at this
/-- One state for each clause about the meanings. -/
theorem witness_WhereTheModelStops_meanings :
    ((holding true [0x01, 0x00]).op = .idle ∧ ∀ data, data.length = 16 →
      (holding true [0x01, 0x00]).cmd ≠ some (encodeMessage 0x01 data)) ∧
    ((holding true [0x01, 0x00]).keyValid = true ∧ ∀ data, data.length = 16 →
      (holding true [0x01, 0x00]).cmd ≠ some (encodeMessage 0x02 data) ∧
      (holding true [0x01, 0x00]).cmd ≠ some (encodeMessage 0x03 data)) ∧
    (atPos .enc 0 0x4).op ≠ .idle ∧ (holding false []).keyValid = false ∧
    (State.reset.op ≠ .keyExp ∧ 43 < (expanding 44).ki) ∧
    ((expanding 3).op = .keyExp ∧ (expanding 3).ki < 4) ∧ (expanding 43).ki ≠ 44 ∧
    (State.reset.op ≠ .enc ∧ State.reset.op ≠ .dec ∧ (atPos .enc 10 0x4).uop ≠ codeStoreState) ∧
    10 < (atPos .enc 11 0x4).rnd :=
  ⟨⟨rfl, short_held 0x01⟩, ⟨rfl, fun d h => ⟨short_held 0x02 d h, short_held 0x03 d h⟩⟩, by decide⟩
/-- One state for each clause about a code and about bytes, at the ends of the ranges of `UOP`. -/
theorem witness_WhereTheModelStops_codes :
    (∀ c ∈ ([0x0, 0x3] : List (BitVec 4)), hostTurn (atPos .enc 0 c) = .engine (atPos .enc 0 c) ∧
      (atPos .enc 0 c).uop < codeAddRoundKey) ∧
    ((atPos .dec 11 0x4).uop = codeAddRoundKey ∧ 10 < (atPos .dec 11 0x4).rnd) ∧
    (codeStoreState < (atPos .enc 0 0xC).uop ∧ codeStoreState < (atPos .dec 0 0xF).uop) ∧
    (hostTurn (holding false [0x01]) = .engine (holding false [0x01]) ∧ isMessage [0x01] = false ∧ isMessage [] = false ∧
      isMessage [0x01, 0x02, 0x00] = false) := by decide
/-- Transforms off the walk of an encryption. -/
theorem witness_WhereTheModelStops_enc : ∀ p ∈ ([(0, 0x5), (10, 0x7), (5, 0xA)] : List (BitVec 4 × BitVec 4)),
    (atPos .enc p.1 p.2).op = .enc ∧ codeAddRoundKey < p.2 ∧ p.2 < codeStoreState ∧ ¬ onEncryptWalk p.1 p.2 := by
  unfold onEncryptWalk; decide +kernel
/-- Transforms off the walk of a decryption. -/
theorem witness_WhereTheModelStops_dec : ∀ p ∈ ([(5, 0x5), (0, 0x8), (10, 0xA)] : List (BitVec 4 × BitVec 4)),
    (atPos .dec p.1 p.2).op = .dec ∧ codeAddRoundKey < p.2 ∧ p.2 < codeStoreState ∧ ¬ onDecryptWalk p.1 p.2 := by
  unfold onDecryptWalk; decide +kernel

/-! ## Witnesses: the host's side -/

/-- One state for each clause, with an empty rest of the plan. -/
theorem witness_HostOffersAndReads :
    (let s : State := { State.reset with plan := [.offer [0x02, 0x00]] }; s.plan = .offer [0x02, 0x00] :: [] ∧ s.cmd = none) ∧
    (let s : State := { holding false [0x03, 0x00] with plan := [.offer [0x02, 0x00]] }; s.plan = .offer [0x02, 0x00] :: [] ∧ s.cmd = some [0x03, 0x00]) ∧
    (let s : State := { State.reset with plan := [.readResponse], rsp := [⟨.ok, []⟩] }; s.plan = .readResponse :: [] ∧ s.rspRead < s.rsp.length) ∧
    (let s : State := { State.reset with plan := [.readResponse] }; s.plan = .readResponse :: [] ∧ s.rsp.length ≤ s.rspRead) := by decide
theorem witness_ResetEvent : ({ expanding 7 with plan := [.assertReset, .readStatus] } : State).plan =
    .assertReset :: [.readStatus] := rfl

/-! ## Witnesses: whole commands -/

theorem witness_LoadKeyRunsToExpand : (holding true (encodeMessage 0x01 fipsKey.toList)).plan = [] ∧
    (holding true (encodeMessage 0x01 fipsKey.toList)).op = .idle ∧
    (holding true (encodeMessage 0x01 fipsKey.toList)).cmd = some (encodeMessage 0x01 fipsKey.toList) := by decide +kernel
/-- EngineRoundTrip has the hypotheses of LoadKeyRunsToExpand. -/
theorem witness_EngineRoundTrip : (holding false (encodeMessage 0x01 fipsKey.toList)).plan = [] ∧
    (holding false (encodeMessage 0x01 fipsKey.toList)).op = .idle ∧
    (holding false (encodeMessage 0x01 fipsKey.toList)).cmd = some (encodeMessage 0x01 fipsKey.toList) := by decide +kernel
theorem witness_EncryptRunsToEncrypt : (holding true (encodeMessage 0x02 fipsKey.toList)).plan = [] ∧
    (holding true (encodeMessage 0x02 fipsKey.toList)).op = .idle ∧
    (holding true (encodeMessage 0x02 fipsKey.toList)).keyValid = true ∧
    (holding true (encodeMessage 0x02 fipsKey.toList)).cmd = some (encodeMessage 0x02 fipsKey.toList) := by decide +kernel
theorem witness_DecryptRunsToDecrypt : (holding true (encodeMessage 0x03 fipsKey.toList)).plan = [] ∧
    (holding true (encodeMessage 0x03 fipsKey.toList)).op = .idle ∧
    (holding true (encodeMessage 0x03 fipsKey.toList)).keyValid = true ∧
    (holding true (encodeMessage 0x03 fipsKey.toList)).cmd = some (encodeMessage 0x03 fipsKey.toList) := by decide +kernel
/-- The valid commands, and each way to be invalid. -/
theorem witness_CommandsTakeFortyOneSteps :
    ((zeros 16).length = 16 ∧ (zeros 16).length ≤ 255) ∧
    (∀ opc ∈ ([0x01, 0x02, 0x03] : List Byte),
      (holding true (encodeMessage opc (zeros 16))).plan = [] ∧ (holding true (encodeMessage opc (zeros 16))).op = .idle ∧
      (opc = 0x01 ∨ ((opc = 0x02 ∨ opc = 0x03) ∧ (holding true (encodeMessage opc (zeros 16))).keyValid = true))) ∧
    (∀ n ∈ [15, 17, 255], (zeros n).length ≠ 16 ∧ (zeros n).length ≤ 255) ∧
    (holding false (encodeMessage 0x02 (zeros 16))).keyValid = false ∧
    ∀ opc ∈ ([0x00, 0x04, 0xFF] : List Byte), opc ≠ 0x01 ∧ opc ≠ 0x02 ∧ opc ≠ 0x03 := by decide +kernel

/-! ## Witnesses: the whole machine -/

/-- The table of the all-zero key is a whole expansion. -/
theorem zeroTable_expanded : expandedTo (expand (intToBytes 0)) 44 := by
  have h : keyOfTable (expand (intToBytes 0)) = intToBytes 0 := by decide +kernel
  intro i hi _
  simp only [h]

/-- A state that meets the invariant with a command in progress in each of the three ways. -/
def midKey : State :=
  { State.reset with op := .keyExp, ki := 44, W := expand (intToBytes 0), cmd := some [0x02, 0x00] }
/-- An encryption at its first position. -/
def midEncrypt : State := cipher .enc 0 0x4 StateMatrix.zero (intToBytes 0)
/-- A decryption at its first position. -/
def midDecrypt : State := cipher .dec 10 0x4 StateMatrix.zero (intToBytes 0)

theorem witness_Inv_idle : Inv loaded where
  tableComplete _ := zeroTable_expanded
  invalidWhileExpanding := nofun
  expanding := nofun
  encrypting := nofun
  decrypting := nofun
  heldIsMessage := nofun
  planOffersMessages := nofun
  responsesLegal := nofun
  readEmitted := Nat.le_refl 0
theorem witness_Inv_keyExp : Inv midKey where
  tableComplete := nofun
  invalidWhileExpanding _ := rfl
  expanding _ := ⟨by decide, by decide, zeroTable_expanded⟩
  encrypting := nofun
  decrypting := nofun
  heldIsMessage := fun _ h => by cases h; decide
  planOffersMessages := nofun
  responsesLegal := nofun
  readEmitted := Nat.le_refl 0
theorem witness_Inv_enc : Inv midEncrypt where
  tableComplete _ := zeroTable_expanded
  invalidWhileExpanding := nofun
  expanding := nofun
  encrypting _ := ⟨rfl, .inl (by decide)⟩
  decrypting := nofun
  heldIsMessage := nofun
  planOffersMessages := nofun
  responsesLegal := nofun
  readEmitted := Nat.le_refl 0
theorem witness_Inv_dec : Inv midDecrypt where
  tableComplete _ := zeroTable_expanded
  invalidWhileExpanding := nofun
  expanding := nofun
  encrypting := nofun
  decrypting _ := ⟨rfl, .inl (by decide)⟩
  heldIsMessage := nofun
  planOffersMessages := nofun
  responsesLegal := nofun
  readEmitted := Nat.le_refl 0
/-- STATUS in each kind of state that meets the invariant. -/
theorem witness_StatusRead : ({ midKey with plan := [.readStatus] } : State).plan = .readStatus :: [] ∧
    loaded.op = .idle ∧ midKey.op = .keyExp ∧ midEncrypt.op = .enc ∧ midDecrypt.op = .dec ∧
    Inv { midKey with plan := [.readStatus] } :=
  ⟨rfl, rfl, rfl, rfl, rfl, { witness_Inv_keyExp with planOffersMessages := fun a h => by simp at h; simp [h, HostAction.offersMessage] }⟩
/-- A step from a state that meets the invariant. -/
theorem witness_StepKeepsInvariant : Inv midKey ∧
    step midKey = .next { midKey with op := .idle, keyValid := true, rsp := [⟨.ok, []⟩] } :=
  ⟨witness_Inv_keyExp, rfl⟩
theorem witness_InvariantStatesNeverStop : Inv midEncrypt := witness_Inv_enc
/-- Busy engines that hold a whole command, one that decodes and one with a reserved operation code. -/
theorem witness_BusyEngineFinishes : (Inv midKey ∧ midKey.plan = [] ∧ midKey.op ≠ .idle ∧
      midKey.cmd = some [0x02, 0x00] ∧ decode (.message [0x02, 0x00]) = .ok (.encrypt [])) ∧
    (Inv { midKey with cmd := some [0x7F, 0x00] } ∧
      decode (.message [0x7F, 0x00]) = .error (.reservedOpcode 0x7F)) :=
  ⟨⟨witness_Inv_keyExp, rfl, nofun, rfl, by decide⟩,
    { witness_Inv_keyExp with heldIsMessage := fun _ h => by cases h; decide }, by decide⟩
/-- The three writers of KEY_VALID: KS_DONE, the accept of a LOAD_KEY, and reset. -/
theorem witness_KeyValidIsWrittenOnlySo : after State.keyValid (step midKey) = some true ∧ midKey.keyValid = false ∧
    after State.keyValid (step (holding true (encodeMessage 0x01 (zeros 16)))) = some false ∧
    after State.keyValid (step { holding true [] with plan := [.assertReset] }) = some false := by decide +kernel
/-- A step that writes the table: the accept of a LOAD_KEY, and a KS_WORD at the first and last index. -/
theorem witness_TableIsWrittenOnlyByLoadKey :
    after (fun t => t.W[0]) (step (holding false (encodeMessage 0x01 fipsKey.toList))) = some (Word.ofBits 0x2B7E1516) ∧
    after (fun t => decide (t.W ≠ (expanding 4).W)) (step (expanding 4)) = some true ∧
    after (fun t => decide (t.W ≠ (expanding 43).W)) (step { expanding 43 with W := State.reset.W.set 42 ⟨1, 0, 0, 0⟩ }) =
      some true := by decide +kernel
/-- A step that emits a response in each of the two ways, and one that emits none. -/
theorem witness_ResponsesOnlyGrow :
    after (fun t => t.rsp.length) (step (holding false [0x03, 0x00])) = some 1 ∧
    after (fun t => t.rsp.length) (step midKey) = some 1 ∧ step State.reset = .next State.reset :=
  ⟨by decide +kernel, by decide +kernel, rfl⟩
/-- Two different idle states that are the same to the host, and one steps. -/
def scrambled : State :=
  { State.reset with S := matrix indexBlock, rnd := 15, uop := 13, ki := 63, W := expand fipsKey }
theorem witness_UnwrittenStateIsUnobservable : State.reset.rnd ≠ scrambled.rnd ∧ State.reset.ki ≠ scrambled.ki ∧
    SameToHost State.reset scrambled ∧ step State.reset = .next State.reset :=
  ⟨by decide, by decide, ⟨rfl, rfl, rfl, rfl, rfl, rfl, rfl, rfl, nofun, nofun, nofun⟩, rfl⟩
/-- Two busy engines at one position with different matrices. -/
theorem witness_WalkIsDataIndependent :
    let s := atPos .enc 1 0x6
    let t := { atPos .enc 1 0x6 with S := matrix indexBlock }
    s.plan = [] ∧ t.plan = [] ∧ s.op ≠ .idle ∧ s.op = t.op ∧ s.rnd = t.rnd ∧ s.uop = t.uop ∧ s.ki = t.ki ∧ s.S ≠ t.S ∧
    after State.uop (step s) = some 0x7 ∧ after State.uop (step t) = some 0x7 := by decide +kernel

/-- Each of the three commands held, with host actions of every kind but a reset to come. -/
def disturbed (opc : Byte) : State :=
  { holding true (encodeMessage opc fipsKey.toList) with
    plan := [.readStatus, .readResponse, .offer [0x02, 0x00], .engineTurn] }
theorem witness_CommandsFinishUnderEveryPlan : ∀ opc ∈ ([0x01, 0x02, 0x03] : List Byte), (disturbed opc).op = .idle ∧
    (∀ a ∈ (disturbed opc).plan, a ≠ .assertReset) ∧ (disturbed opc).keyValid = true ∧
    (disturbed opc).cmd = some (encodeMessage opc fipsKey.toList) := by decide +kernel
theorem witness_RunsNeverStop : Inv midDecrypt ∧
    ∀ a ∈ [HostAction.offer [0x7F, 0x00], .readStatus, .assertReset, .readResponse], a.offersMessage :=
  ⟨witness_Inv_dec, by simp [HostAction.offersMessage, isMessage]⟩

end Sys2Proof.Tests
end

section
/-!
PROOFS. The `STATUS` register and the two host actions that never wait: a `STATUS` read and the reset event (10_state.md
R25, R38; 70_reset_and_hazards.md R230).
-/

namespace Sys2Proof.Machine

/-! ## The value of `STATUS` -/

/-- The bits of `STATUS` (R25): bit 0 is `KEY_VALID`, bit 1 `BUSY`, and the bits above are zero. -/
theorem State.status_getLsbD (s : State) (k : Nat) :
    s.status.getLsbD k = if k = 0 then s.keyValid else if k = 1 then s.busy else false := by
  change BitVec.getLsbD (w := 6 + 1 + 1) ((0 : BitVec 6) ++ BitVec.ofBool s.busy ++ BitVec.ofBool s.keyValid) k = _
  rw [BitVec.getLsbD_append, BitVec.getLsbD_append]
  match k with
  | 0 => simp
  | 1 => simp
  | k + 2 => simp

theorem State.status_of_idle {s : State} (h : s.op = .idle) : s.status = if s.keyValid then 0x01 else 0x00 := by
  cases hk : s.keyValid <;> simp [State.status, State.busy, h, hk]

theorem State.status_of_busy_invalid {s : State} (h : s.op ≠ .idle) (hk : s.keyValid = false) : s.status = 0x02 := by
  simp [State.status, State.busy, h, hk]

theorem State.status_of_busy_valid {s : State} (h : s.op ≠ .idle) (hk : s.keyValid = true) : s.status = 0x03 := by
  simp [State.status, State.busy, h, hk]

/-- What `STATUS` reads in a state that meets the invariant: (I2) and (I4) fix `KEY_VALID` while the engine is busy. -/
theorem Inv.status {s : State} (hinv : Inv s) :
    (s.op = .idle → s.status = if s.keyValid then 0x01 else 0x00) ∧ (s.op = .keyExp → s.status = 0x02) ∧
      (s.op = .enc ∨ s.op = .dec → s.status = 0x03) := by
  refine ⟨State.status_of_idle, fun hop => ?_, fun hop => ?_⟩
  · exact State.status_of_busy_invalid (by simp [hop]) (hinv.invalidWhileExpanding hop)
  · obtain hop | hop := hop
    · exact State.status_of_busy_valid (by simp [hop]) (hinv.encrypting hop).1
    · exact State.status_of_busy_valid (by simp [hop]) (hinv.decrypting hop).1

/-! ## The two actions as steps -/

/-- A `STATUS` read is always the host's turn: whatever the engine does, the step is that read. -/
theorem step_readStatus {s : State} {rest : List HostAction} (h : s.plan = .readStatus :: rest) :
    step s = .next (s.setPlan rest).readStatus := by
  simp only [step, hostTurn, h]

/-- A reset is always the host's turn: whatever the engine does, the step is the reset event. -/
theorem step_assertReset {s : State} {rest : List HostAction} (h : s.plan = .assertReset :: rest) :
    step s = .next (s.setPlan rest).resetEvent := by
  simp only [step, hostTurn, h]

/-! ## The obligations -/

/-- Settles O38: the byte read is `State.status`, whose bits and values the lemmas above give. -/
theorem statusRead : Obligations.StatusRead := by
  unfold Obligations.StatusRead
  refine ⟨fun s rest hplan => ⟨s.status, ?_, ?_⟩, ?_⟩
  · exact step_readStatus hplan
  · refine ⟨s.status_getLsbD 0, s.status_getLsbD 1, fun k hk => ?_, Inv.status⟩
    rw [s.status_getLsbD, if_neg (by omega), if_neg (by omega)]
  · exact State.status_of_idle rfl

/-- Settles O39: the step is the reset event, and both the state after it and `State.reset` are idle with no valid key,
which makes `STATUS` read 0x00. -/
theorem resetEvent : Obligations.ResetEvent := by
  unfold Obligations.ResetEvent
  refine ⟨fun s rest hplan => ⟨(s.setPlan rest).resetEvent, step_assertReset hplan, ?_⟩, rfl, rfl, rfl, rfl, ?_⟩
  · have hstatus : (s.setPlan rest).resetEvent.status = 0x00 := by simp [State.status_of_idle]
    simp [hstatus]
  · exact State.status_of_idle rfl

end Sys2Proof.Machine
end

section
/-!
PROOFS. The matrix forms of 20_memory.md, read byte by byte: `ToMatrix` (R63) and the round key fetch (R66).
-/

namespace Sys2Proof

/-- Row `r`, column `c` of `ToMatrix(b)` is byte `r + 4c` of the block (R63). -/
@[simp] theorem toMatrix_get (b : Block) (r c : Fin 4) : (toMatrix b).get r c = b[r.val + 4 * c.val] :=
  StateMatrix.get_ofFn _ r c

/-- Row `k`, column `c` of `RoundKey(r)` is byte `k` of word `4r + c` (R66). -/
@[simp] theorem roundKey_get (W : Table) (r : Fin 11) (k c : Fin 4) :
    (roundKey W r).get k c = (W[4 * r.val + c.val]).byte k :=
  StateMatrix.get_ofFn _ k c

/-- `ToMatrix` of the bytes of four words in order has word `c` as its column `c`. -/
theorem toMatrix_wordBytes_get (w : Fin 4 → Word) (k c : Fin 4) :
    (toMatrix (Vector.ofFn fun i : Fin 16 =>
      (w ⟨i.val / 4, by omega⟩).byte ⟨i.val % 4, by omega⟩)).get k c = (w c).byte k := by
  have hcol : (k.val + 4 * c.val) / 4 = c.val := by omega
  have hrow : (k.val + 4 * c.val) % 4 = k.val := by omega
  simp only [toMatrix_get, Vector.getElem_ofFn, hcol, hrow]

/-- Settles O6: both matrices have byte `k` of word `W[4r + c]` at row `k`, column `c`, so they are equal. -/
theorem roundKeyFetch : Obligations.RoundKeyFetch := by
  unfold Obligations.RoundKeyFetch
  intro W r
  refine ⟨roundKey_get W r, StateMatrix.ext_get fun k c => ?_⟩
  rw [roundKey_get]
  exact (toMatrix_wordBytes_get (fun c => W[4 * r.val + c.val]) k c).symm

end Sys2Proof
end

section
/-!
PROOFS. A command with a reserved operation code: how its message decodes and how the idle engine answers it (30_encoding.md
R94, R97; 60_exceptions.md R204).
-/

namespace Sys2Proof

/-- A message whose payload fits `LEN` decodes by its operation code alone (R94). -/
theorem decode_encodeMessage {data : List Byte} (opc : Byte) (hlen : data.length ≤ 255) :
    decode (.message (encodeMessage opc data)) = decodeOpcode opc data := by
  have hfits : data.length = (BitVec.ofNat 8 data.length).toNat := by
    rw [BitVec.toNat_ofNat, Nat.mod_eq_of_lt (by omega)]
  exact if_pos hfits

/-- The three operation codes of R93 are the only ones that name a command (R97). -/
theorem decodeOpcode_reserved {opc : Byte} (data : List Byte) (hkey : opc ≠ 0x01) (henc : opc ≠ 0x02)
    (hdec : opc ≠ 0x03) : decodeOpcode opc data = .error (.reservedOpcode opc) := by
  rw [decodeOpcode, if_neg hkey, if_neg henc, if_neg hdec]

end Sys2Proof

namespace Sys2Proof.Machine

/-- When it is the engine's turn, the step is the engine's transition (R178). -/
theorem step_of_engineTurn {s u : State} (h : hostTurn s = .engine u) : step s = engineStep u := by
  simp only [step, h]

/-- An idle engine finds to do what the command it holds asks for (R77, R178). -/
theorem fetch_of_held {s : State} {bytes : List Byte} (hop : s.op = .idle) (hcmd : s.cmd = some bytes) :
    fetch s = fetched (decode (.message bytes)) := by
  simp only [fetch, hop, hcmd]

/-- An idle engine answers a held message with a reserved operation code by the error IllegalCommand (R97, R204). -/
theorem engineStep_of_reservedOpcode {s : State} {bytes : List Byte} {opc : Byte} (hop : s.op = .idle)
    (hcmd : s.cmd = some bytes) (hdecode : decode (.message bytes) = .error (.reservedOpcode opc)) :
    engineStep s = .next (s.raiseError .illegalCommand) := by
  have hfetch : fetch s = .illegal := by rw [fetch_of_held hop hcmd, hdecode, fetched]
  simp only [engineStep, hfetch]

/-- Settles O33: the message decodes to its reserved code, so the engine's transition is the error, which takes the command
and appends the response. -/
theorem reservedOpcodeAnswered : Obligations.ReservedOpcodeAnswered := by
  unfold Obligations.ReservedOpcodeAnswered
  intro s u opc data hturn hop hcmd hlen hkey henc hdec
  have hdecode : decode (.message (encodeMessage opc data)) = .error (.reservedOpcode opc) :=
    (decode_encodeMessage opc hlen).trans (decodeOpcode_reserved data hkey henc hdec)
  calc step s = engineStep u := step_of_engineTurn hturn
    _ = .next (u.raiseError .illegalCommand) := engineStep_of_reservedOpcode hop hcmd hdecode
    _ = _ := rfl

end Sys2Proof.Machine
end

section
/-!
PROOFS. The key schedule: the words of `Expand` (40_key_schedule.md R121), and the two transitions that write the table, the
accept of LOAD_KEY (R125, R201) and KS_WORD (R126).
-/

namespace Sys2Proof

/-- Word `c` of a key, byte by byte (R64). -/
theorem keyWord_eq (key : Block) (c : Fin 4) :
    keyWord key c = ⟨key[4 * c.val], key[4 * c.val + 1], key[4 * c.val + 2], key[4 * c.val + 3]⟩ := rfl

end Sys2Proof

namespace Sys2Proof.Machine

/-! ## The words of the expansion -/

/-- The schedule's word at every fourth index goes through TEMP (R121). -/
theorem scheduleWord_of_mod_eq {W : Table} {i : Nat} (h4 : 4 ≤ i) (h : i < 44) (hm : i % 4 = 0) :
    scheduleWord W i h4 h = W[i - 4].xor (temp W[i - 1] ⟨i / 4, by omega⟩) := if_pos hm

/-- The schedule's word at any other index is the XOR of two words before it (R121). -/
theorem scheduleWord_of_mod_ne {W : Table} {i : Nat} (h4 : 4 ≤ i) (h : i < 44) (hm : i % 4 ≠ 0) :
    scheduleWord W i h4 h = W[i - 4].xor W[i - 1] := if_neg hm

/-- The first four words of `Expand(key)` are the words of the key (R121). -/
theorem expand_getElem_of_lt (key : Block) {c : Nat} (h : c < 4) : (expand key)[c] = keyWord key ⟨c, h⟩ := by
  have hloop : (expand key)[c] = (loadKeyWords (Vector.replicate 44 Word.zero) key)[c] :=
    (expandLoop_spec _ 40 le_rfl).1 c (by omega) h
  rw [hloop, loadKeyWords_getElem _ _ c (by omega), dif_pos h]

/-- Every later word of `Expand(key)` is the schedule's word over `Expand(key)` itself (R121). -/
theorem expand_getElem_of_le (key : Block) {i : Nat} (h4 : 4 ≤ i) (h : i < 44) :
    (expand key)[i] = scheduleWord (expand key) i h4 h :=
  (expandLoop_spec _ 40 le_rfl).2 i h4 h h

/-- Settles O14: the loop leaves the key in words 0 to 3, and its result satisfies the recurrence in every later word. -/
theorem expandFollowsTheRecurrence : Obligations.ExpandFollowsTheRecurrence := by
  unfold Obligations.ExpandFollowsTheRecurrence
  intro key
  refine ⟨fun c hc => ?_, fun i h4 h hm => ?_, fun i h4 h hm => ?_⟩
  · exact (expand_getElem_of_lt key hc).trans (keyWord_eq key ⟨c, hc⟩)
  · exact (expand_getElem_of_le key h4 h).trans (scheduleWord_of_mod_eq h4 h hm)
  · exact (expand_getElem_of_le key h4 h).trans (scheduleWord_of_mod_ne h4 h hm)

/-! ## The accept of LOAD_KEY -/

/-- On an idle engine LOAD_KEY of a key starts the expansion (R125). -/
theorem execLoadKey_of_key {s : State} (hop : s.op = .idle) (key : Block) :
    execLoadKey key.toList s = .next (startExpansion key s) := by
  simp [execLoadKey, hop]

/-- On an idle engine LOAD_KEY of any other length is the error InvalidKeyLength (R201). -/
theorem execLoadKey_of_length_ne {s : State} {data : List Byte} (hop : s.op = .idle) (hlen : data.length ≠ 16) :
    execLoadKey data s = .next (s.raiseError .invalidKeyLength) := by
  simp [execLoadKey, hop, blockOf_eq_none.2 hlen]

/-- Settles O17: a payload of 16 bytes is a key, whose words `startExpansion` writes; any other payload raises the error. -/
theorem loadKeyAccept : Obligations.LoadKeyAccept := by
  unfold Obligations.LoadKeyAccept
  intro s data hop
  refine ⟨fun hlen => ?_, fun hlen => execLoadKey_of_length_ne hop hlen⟩
  obtain ⟨key, rfl⟩ : ∃ key : Block, data = key.toList := ⟨⟨data.toArray, hlen⟩, rfl⟩
  refine ⟨loadKeyWords s.W key, execLoadKey_of_key hop key, fun c hc => ?_, fun i hi h4 => ?_⟩
  · rw [loadKeyWords_getElem _ _ c (by omega), dif_pos hc, keyWord_eq]
    simp only [Vector.getElem_toList]
  · rw [loadKeyWords_getElem _ _ i hi, dif_neg (by omega)]

/-! ## KS_WORD -/

/-- Where KS_WORD is enabled and `KI` is past the key, it is one turn of the expansion's loop and one step of `KI`
(R126). -/
theorem execKsWord_of_ki {s : State} {i : Nat} (h4 : 4 ≤ i) (h : i < 44) (hop : s.op = .keyExp)
    (hki : s.ki = BitVec.ofNat 6 i) :
    execKsWord s = .next ((s.setTable (s.W.set i (scheduleWord s.W i h4 h) h)).setKi (BitVec.ofNat 6 (i + 1))) := by
  have hnat : s.ki.toNat = i := by rw [hki, BitVec.toNat_ofNat, Nat.mod_eq_of_lt (by omega)]
  subst hnat
  have hinc : s.ki + 1 = BitVec.ofNat 6 (s.ki.toNat + 1) := by simp [BitVec.ofNat_add]
  rw [execKsWord, dif_pos ⟨hop, h⟩, dif_pos h4, hinc]

/-- Settles O19: KS_WORD is enabled, and the word it writes is the schedule's. -/
theorem ksWordWritesTheNextWord : Obligations.KsWordWritesTheNextWord := by
  unfold Obligations.KsWordWritesTheNextWord
  intro s i h4 h hop hki
  exact execKsWord_of_ki h4 h hop hki

end Sys2Proof.Machine
end

section
/-!
PROOFS. Arithmetic in GF(2^8): the doubling `XTIME` (41_round_transforms.md R140), and the product `GMUL` as a linear sum of
doublings (R142).
-/

namespace Sys2Proof.Machine

/-! ## Doubling -/

/-- The equivalent form of R140: the bit shifted out of the byte is bit 7. -/
theorem xtime_eq (b : Byte) : xtime b = (b <<< 1) ^^^ (if b.getLsbD 7 then 0x1B else 0x00) := by
  have hcarry : (b.setWidth 9 <<< 1).getLsbD 8 = b.getLsbD 7 := by simp
  have hlow : (b.setWidth 9 <<< 1).setWidth 8 = b <<< 1 := by ext i hi; simp
  simp only [xtime, hcarry]
  split
  · rw [BitVec.setWidth_xor, hlow]; rfl
  · exact hlow.trans BitVec.xor_zero.symm

theorem xtime_xor (a b : Byte) : xtime (a ^^^ b) = xtime a ^^^ xtime b := by
  have hreduce : ∀ p q : Bool, (if p ^^ q then 0x1B else 0x00 : Byte) =
      (if p then 0x1B else 0x00) ^^^ (if q then 0x1B else 0x00) := by decide
  simp only [xtime_eq, BitVec.getLsbD_xor, hreduce, BitVec.shiftLeft_xor_distrib]
  ac_rfl

/-- 0x8D is the inverse of 0x02 in the field: multiplying by it undoes a doubling. -/
theorem gmul_8D_xtime : Function.LeftInverse (gmul 0x8D) xtime := by
  unfold Function.LeftInverse
  decide +kernel

theorem xtime_injective : Function.Injective xtime := gmul_8D_xtime.injective

/-- Settles O7: the shift form of R140; a doubling can be undone, so on the finitely many bytes it is a bijection. -/
theorem xtimeDoubles : Obligations.XtimeDoubles := by
  unfold Obligations.XtimeDoubles
  refine ⟨xtime_eq, fun a b h => xtime_injective h, ?_⟩
  exact Finite.surjective_of_injective xtime_injective

/-! ## The product -/

/-- One turn of the loop of `GMUL` (R142), on the running sum and the running doubling. -/
def gmulStep (k : Byte) (p : Byte × Byte) (j : Nat) : Byte × Byte :=
  (if k.getLsbD j then p.1 ^^^ p.2 else p.1, xtime p.2)

theorem gmul_eq_foldl (k b : Byte) : gmul k b = ((List.range 8).foldl (gmulStep k) (0x00, b)).1 := rfl

/-- After `n` turns the loop holds the sum of the doublings that the low `n` bits of `k` select, and the `n`-fold
doubling. -/
theorem foldl_gmulStep_range (k b : Byte) (n : Nat) :
    (List.range n).foldl (gmulStep k) (0x00, b) =
      (((List.range n).map fun j => if k.getLsbD j then xtime^[j] b else 0x00).foldl (· ^^^ ·) 0x00, xtime^[n] b) := by
  induction n with
  | zero => rfl
  | succ n ih =>
    rw [List.range_succ, List.foldl_append, ih, List.map_append, List.foldl_append, Function.iterate_succ_apply']
    cases hbit : k.getLsbD n <;> simp [gmulStep, hbit]

/-- A turn of the loop is linear in the pair. -/
theorem gmulStep_xor (k : Byte) (p q : Byte × Byte) (j : Nat) :
    gmulStep k (p.1 ^^^ q.1, p.2 ^^^ q.2) j =
      ((gmulStep k p j).1 ^^^ (gmulStep k q j).1, (gmulStep k p j).2 ^^^ (gmulStep k q j).2) := by
  refine Prod.ext ?_ (xtime_xor p.2 q.2)
  simp only [gmulStep]
  split
  · ac_rfl
  · rfl

theorem foldl_gmulStep_xor (k : Byte) (js : List Nat) (p q : Byte × Byte) :
    js.foldl (gmulStep k) (p.1 ^^^ q.1, p.2 ^^^ q.2) =
      ((js.foldl (gmulStep k) p).1 ^^^ (js.foldl (gmulStep k) q).1,
        (js.foldl (gmulStep k) p).2 ^^^ (js.foldl (gmulStep k) q).2) := by
  induction js generalizing p q with
  | nil => rfl
  | cons j js ih => simp only [List.foldl_cons, gmulStep_xor, ih]

/-- `GMUL` is linear in its second argument (R142). -/
theorem gmul_xor (k a b : Byte) : gmul k (a ^^^ b) = gmul k a ^^^ gmul k b := by
  have hloop := foldl_gmulStep_xor k (List.range 8) (0x00, a) (0x00, b)
  rw [BitVec.xor_self] at hloop
  exact congrArg Prod.fst hloop

theorem gmul_zero (k : Byte) : gmul k 0x00 = 0x00 := by
  calc gmul k 0x00 = gmul k 0x00 ^^^ gmul k 0x00 := gmul_xor k 0x00 0x00
    _ = 0x00 := BitVec.xor_self

@[simp] theorem gmul_one (b : Byte) : gmul 1#8 b = b := by simp [gmul]

/-! The multiplications of the two mixing matrices (R150, R151), as sums of doublings (R143). -/

theorem gmul_two (b : Byte) : gmul 2 b = xtime b := by simp [gmul]
theorem gmul_three (b : Byte) : gmul 3 b = b ^^^ xtime b := by simp [gmul]
theorem gmul_nine (b : Byte) : gmul 9 b = b ^^^ xtime (xtime (xtime b)) := by simp [gmul]
theorem gmul_eleven (b : Byte) : gmul 11 b = b ^^^ xtime b ^^^ xtime (xtime (xtime b)) := by simp [gmul]
theorem gmul_thirteen (b : Byte) : gmul 13 b = b ^^^ xtime (xtime b) ^^^ xtime (xtime (xtime b)) := by simp [gmul]
theorem gmul_fourteen (b : Byte) : gmul 14 b = xtime b ^^^ xtime (xtime b) ^^^ xtime (xtime (xtime b)) := by
  simp [gmul]

/-- Settles O9: the loop sums the selected doublings, and each of its turns is linear. -/
theorem gmulIsTheLinearSumOfDoublings : Obligations.GmulIsTheLinearSumOfDoublings := by
  unfold Obligations.GmulIsTheLinearSumOfDoublings
  refine ⟨fun k b => ?_, gmul_xor, gmul_zero⟩
  rw [gmul_eq_foldl, foldl_gmulStep_range]

end Sys2Proof.Machine
end

section
/-!
PROOFS. The transforms that keep every byte in its row, byte by byte: AddRoundKey, and SubBytes and ShiftRows with their
inverses (41_round_transforms.md R145 to R149), and the micro-operations that perform them.
-/

namespace Sys2Proof

/-- Byte `r + 4c` of a block is row `r`, column `c` of its matrix (R63). -/
theorem fromMatrix_getElem (M : StateMatrix) (i : Nat) (h : i < 16) :
    (fromMatrix M)[i] = M.get ⟨i % 4, by omega⟩ ⟨i / 4, by omega⟩ := by simp [fromMatrix]

/-- A matrix whose row `r` is another's rotated left by `n * r` columns, in block order. -/
theorem fromMatrix_getElem_of_rotated {M N : StateMatrix} (n : Nat)
    (hrot : ∀ r c d : Fin 4, d.val = (c.val + n * r.val) % 4 → N.get r c = M.get r d) (i : Nat) (h : i < 16) :
    (fromMatrix N)[i] = (fromMatrix M)[(i + 4 * (n * (i % 4))) % 16] := by
  have hrow : (i + 4 * (n * (i % 4))) % 16 % 4 = i % 4 := by omega
  have hcol : (i + 4 * (n * (i % 4))) % 16 / 4 = (i / 4 + n * (i % 4)) % 4 := by omega
  simp only [fromMatrix_getElem, hrow]
  exact hrot _ _ _ hcol

end Sys2Proof

namespace Sys2Proof.Machine

/-! ## What each transform does to a byte -/

@[simp] theorem addRoundKey_get (S K : StateMatrix) (r c : Fin 4) :
    (addRoundKey S K).get r c = S.get r c ^^^ K.get r c := StateMatrix.get_ofFn _ r c

@[simp] theorem subBytes_get (S : StateMatrix) (r c : Fin 4) : (subBytes S).get r c = sbox (S.get r c) :=
  StateMatrix.get_map _ S r c

@[simp] theorem invSubBytes_get (S : StateMatrix) (r c : Fin 4) : (invSubBytes S).get r c = invSbox (S.get r c) :=
  StateMatrix.get_map _ S r c

theorem shiftRows_get (S : StateMatrix) {r c d : Fin 4} (h : d.val = (c.val + r.val) % 4) :
    (shiftRows S).get r c = S.get r d := by
  have hd : d = c + r := Fin.ext h
  rw [hd]
  exact StateMatrix.get_ofFn _ r c

theorem invShiftRows_get (S : StateMatrix) {r c d : Fin 4} (h : d.val = (c.val + 4 - r.val) % 4) :
    (invShiftRows S).get r c = S.get r d := by
  have hd : d = ⟨(c.val + 4 - r.val) % 4, Nat.mod_lt _ (by decide)⟩ := Fin.ext h
  rw [hd]
  exact StateMatrix.get_ofFn _ r c

/-! ## The micro-operations -/

/-- While `RND` is a round, ADD_ROUND_KEY is enabled and takes the round key of `RND` (R145). -/
theorem execAddRoundKey_of_rnd {s : State} {n : Nat} (hn : n < 11) (hrnd : s.rnd = BitVec.ofNat 4 n) :
    execAddRoundKey s = .next (s.setMatrix (addRoundKey s.S (roundKey s.W ⟨n, hn⟩))) := by
  have hnat : s.rnd.toNat = n := by rw [hrnd, BitVec.toNat_ofNat, Nat.mod_eq_of_lt (by omega)]
  subst hnat
  exact dif_pos hn

/-- Settles O21: the round key of `RND` has byte `r` of word `W[4 RND + c]` at row `r`, column `c`. -/
theorem addRoundKeyXorsTheRoundKey : Obligations.AddRoundKeyXorsTheRoundKey := by
  unfold Obligations.AddRoundKeyXorsTheRoundKey
  intro s n hn hrnd
  refine ⟨_, execAddRoundKey_of_rnd (Nat.lt_succ_of_le hn) hrnd, fun r c => ?_⟩
  rw [addRoundKey_get, roundKey_get]

/-- Settles O22: both substitutions map every byte of the matrix where it stands. -/
theorem substitutionActsOnEveryByte : Obligations.SubstitutionActsOnEveryByte := by
  unfold Obligations.SubstitutionActsOnEveryByte
  intro s
  exact ⟨⟨subBytes s.S, rfl, subBytes_get s.S⟩, ⟨invSubBytes s.S, rfl, invSubBytes_get s.S⟩⟩

/-- Settles O23: row `r` is rotated left by `r` columns, or by `3 r`, which is right by `r`; a column is four bytes of the
block. -/
theorem rowRotations : Obligations.RowRotations := by
  unfold Obligations.RowRotations
  intro s
  refine ⟨⟨shiftRows s.S, rfl, fun r c d => shiftRows_get s.S, ?_⟩,
    ⟨invShiftRows s.S, rfl, fun r c d => invShiftRows_get s.S, ?_⟩⟩
  · intro i h
    have hblock := fromMatrix_getElem_of_rotated 1 (fun r c d hd => shiftRows_get s.S (by omega)) i h
    simpa only [one_mul] using hblock
  · intro i h
    have hblock := fromMatrix_getElem_of_rotated 3 (fun r c d hd => invShiftRows_get s.S (by omega)) i h
    simpa only [← mul_assoc, Nat.reduceMul] using hblock

end Sys2Proof.Machine
end

section
/-!
PROOFS. The column mixings (41_round_transforms.md R150, R151): each byte of a mixed column as a row of the matrix times the
column.
-/

namespace Sys2Proof.Machine

@[simp] theorem mixColumns_column (S : StateMatrix) (c : Fin 4) : (mixColumns S).column c = mixColumn (S.column c) :=
  StateMatrix.column_mapColumns _ S c

@[simp] theorem invMixColumns_column (S : StateMatrix) (c : Fin 4) :
    (invMixColumns S).column c = invMixColumn (S.column c) := StateMatrix.column_mapColumns _ S c

/-- A row of a matrix times a column (R150). -/
def rowTimes (row column : Word) : Byte :=
  gmul row.b0 column.b0 ^^^ gmul row.b1 column.b1 ^^^ gmul row.b2 column.b2 ^^^ gmul row.b3 column.b3

/-- Row `r` of the forward matrix (R150). -/
def forwardRow (r : Fin 4) : Word :=
  match r with
  | 0 => ⟨0x02, 0x03, 0x01, 0x01⟩
  | 1 => ⟨0x01, 0x02, 0x03, 0x01⟩
  | 2 => ⟨0x01, 0x01, 0x02, 0x03⟩
  | 3 => ⟨0x03, 0x01, 0x01, 0x02⟩

/-- Row `r` of the inverse matrix (R151). -/
def inverseRow (r : Fin 4) : Word :=
  match r with
  | 0 => ⟨0x0E, 0x0B, 0x0D, 0x09⟩
  | 1 => ⟨0x09, 0x0E, 0x0B, 0x0D⟩
  | 2 => ⟨0x0D, 0x09, 0x0E, 0x0B⟩
  | 3 => ⟨0x0B, 0x0D, 0x09, 0x0E⟩

theorem mixColumn_byte (a : Word) (r : Fin 4) : (mixColumn a).byte r = rowTimes (forwardRow r) a := by
  fin_cases r <;> simp [Word.byte, mixColumn, rowTimes, forwardRow]

theorem invMixColumn_byte (a : Word) (r : Fin 4) : (invMixColumn a).byte r = rowTimes (inverseRow r) a := by
  fin_cases r <;> rfl

/-- Settles O24: the two transforms mix each column alone, and byte `r` of a mixed column is row `r` of the matrix times the
column. -/
theorem columnMixings : Obligations.ColumnMixings := by
  unfold Obligations.ColumnMixings
  intro forward inverse times s
  have hforward : ∀ r, forward r = forwardRow r := by decide
  have hinverse : ∀ r, inverse r = inverseRow r := by decide
  refine ⟨⟨mixColumns s.S, rfl, fun r c => ?_⟩, ⟨invMixColumns s.S, rfl, fun r c => ?_⟩⟩
  · rw [StateMatrix.get, mixColumns_column, mixColumn_byte, hforward]; rfl
  · rw [StateMatrix.get, invMixColumns_column, invMixColumn_byte, hinverse]; rfl

end Sys2Proof.Machine
end

section
/-!
PROOFS. The exact inverse pairs (41_round_transforms.md R152), for any state and round key.
-/

namespace Sys2Proof.Machine

theorem addRoundKey_addRoundKey (S K : StateMatrix) : addRoundKey (addRoundKey S K) K = S :=
  StateMatrix.ext_get fun r c => by
    simp only [addRoundKey_get, BitVec.xor_assoc, BitVec.xor_self, BitVec.xor_zero]

/-! ## Substitution -/

/-- INV_SBOX undoes SBOX: the tables, entry by entry (R31). -/
theorem invSbox_sbox : Function.LeftInverse invSbox sbox := by
  unfold Function.LeftInverse
  decide +kernel

/-- A left inverse of a map of the finitely many bytes is a right inverse too (R31). -/
theorem sbox_invSbox : Function.RightInverse invSbox sbox :=
  invSbox_sbox.rightInverse_of_surjective (Finite.surjective_of_injective invSbox_sbox.injective)

theorem invSubBytes_subBytes (S : StateMatrix) : invSubBytes (subBytes S) = S :=
  StateMatrix.ext_get fun r c => by rw [invSubBytes_get, subBytes_get, invSbox_sbox]

theorem subBytes_invSubBytes (S : StateMatrix) : subBytes (invSubBytes S) = S :=
  StateMatrix.ext_get fun r c => by rw [subBytes_get, invSubBytes_get, sbox_invSbox]

/-! ## Rotation of rows -/

theorem invShiftRows_shiftRows (S : StateMatrix) : invShiftRows (shiftRows S) = S :=
  StateMatrix.ext_get fun r c => by
    rw [invShiftRows_get (shiftRows S) (d := ⟨(c.val + 4 - r.val) % 4, by omega⟩) rfl]
    exact shiftRows_get S (by simp only; omega)

theorem shiftRows_invShiftRows (S : StateMatrix) : shiftRows (invShiftRows S) = S :=
  StateMatrix.ext_get fun r c => by
    rw [shiftRows_get (invShiftRows S) (d := ⟨(c.val + r.val) % 4, by omega⟩) rfl]
    exact invShiftRows_get S (by simp only; omega)

/-! ## Mixing of columns

Both mixings are linear, and both matrices are circulant, so the mixings commute with ROT_WORD. One after the other therefore
keeps every word once it keeps the words whose bytes 1 to 3 are zero. -/

theorem mixColumn_xor (a b : Word) : mixColumn (a.xor b) = (mixColumn a).xor (mixColumn b) := by
  simp only [mixColumn, Word.xor, gmul_xor, Word.mk.injEq]
  refine ⟨?_, ?_, ?_, ?_⟩ <;> ac_rfl

theorem invMixColumn_xor (a b : Word) : invMixColumn (a.xor b) = (invMixColumn a).xor (invMixColumn b) := by
  simp only [invMixColumn, Word.xor, gmul_xor, Word.mk.injEq]
  refine ⟨?_, ?_, ?_, ?_⟩ <;> ac_rfl

theorem mixColumn_rotWord (a : Word) : mixColumn (rotWord a) = rotWord (mixColumn a) := by
  simp only [mixColumn, rotWord, Word.mk.injEq]
  refine ⟨?_, ?_, ?_, ?_⟩ <;> ac_rfl

theorem invMixColumn_rotWord (a : Word) : invMixColumn (rotWord a) = rotWord (invMixColumn a) := by
  simp only [invMixColumn, rotWord, Word.mk.injEq]
  refine ⟨?_, ?_, ?_, ?_⟩ <;> ac_rfl

/-- The first column of either product of the two matrices is 1, 0, 0, 0: as sums of the repeated doublings of `x`, all
terms but one `x` cancel. -/
theorem mixings_firstByte (x : Byte) :
    invMixColumn (mixColumn ⟨x, 0, 0, 0⟩) = ⟨x, 0, 0, 0⟩ ∧ mixColumn (invMixColumn ⟨x, 0, 0, 0⟩) = ⟨x, 0, 0, 0⟩ := by
  simp only [mixColumn, invMixColumn, gmul_zero, gmul_two, gmul_three, gmul_nine, gmul_eleven, gmul_thirteen,
    gmul_fourteen, xtime_xor, Word.mk.injEq]
  generalize xtime x = x₁
  generalize xtime x₁ = x₂
  generalize xtime x₂ = x₃
  generalize xtime x₃ = x₄
  have hleft : ∀ a b c : Byte, a ^^^ (b ^^^ c) = b ^^^ (a ^^^ c) := fun a b c => by ac_rfl
  simp [BitVec.xor_assoc, BitVec.xor_comm, hleft]

/-- A linear map of words that commutes with ROT_WORD and keeps the words of a first byte alone keeps every word. -/
theorem eq_self_of_linear_of_rotWord {f : Word → Word} (hxor : ∀ a b, f (a.xor b) = (f a).xor (f b))
    (hrot : ∀ a, f (rotWord a) = rotWord (f a)) (hb0 : ∀ x, f ⟨x, 0, 0, 0⟩ = ⟨x, 0, 0, 0⟩) (a : Word) : f a = a := by
  have hb3 : ∀ x, f ⟨0, 0, 0, x⟩ = ⟨0, 0, 0, x⟩ := fun x => (hrot ⟨x, 0, 0, 0⟩).trans (congrArg rotWord (hb0 x))
  have hb2 : ∀ x, f ⟨0, 0, x, 0⟩ = ⟨0, 0, x, 0⟩ := fun x => (hrot ⟨0, 0, 0, x⟩).trans (congrArg rotWord (hb3 x))
  have hb1 : ∀ x, f ⟨0, x, 0, 0⟩ = ⟨0, x, 0, 0⟩ := fun x => (hrot ⟨0, 0, x, 0⟩).trans (congrArg rotWord (hb2 x))
  have hsum : a = ((Word.xor ⟨a.b0, 0, 0, 0⟩ ⟨0, a.b1, 0, 0⟩).xor ⟨0, 0, a.b2, 0⟩).xor ⟨0, 0, 0, a.b3⟩ := by
    simp [Word.xor]
  rw [hsum, hxor, hxor, hxor, hb0, hb1, hb2, hb3]

theorem invMixColumn_mixColumn : Function.LeftInverse invMixColumn mixColumn :=
  eq_self_of_linear_of_rotWord (f := fun a => invMixColumn (mixColumn a))
    (fun a b => by rw [mixColumn_xor, invMixColumn_xor])
    (fun a => by rw [mixColumn_rotWord, invMixColumn_rotWord])
    (fun x => (mixings_firstByte x).1)

theorem mixColumn_invMixColumn : Function.LeftInverse mixColumn invMixColumn :=
  eq_self_of_linear_of_rotWord (f := fun a => mixColumn (invMixColumn a))
    (fun a b => by rw [invMixColumn_xor, mixColumn_xor])
    (fun a => by rw [invMixColumn_rotWord, mixColumn_rotWord])
    (fun x => (mixings_firstByte x).2)

theorem mapColumns_mapColumns_of_leftInverse {f g : Word → Word} (h : Function.LeftInverse f g) (S : StateMatrix) :
    (S.mapColumns g).mapColumns f = S := by
  simp only [StateMatrix.mapColumns, h _]

theorem invMixColumns_mixColumns (S : StateMatrix) : invMixColumns (mixColumns S) = S :=
  mapColumns_mapColumns_of_leftInverse invMixColumn_mixColumn S

theorem mixColumns_invMixColumns (S : StateMatrix) : mixColumns (invMixColumns S) = S :=
  mapColumns_mapColumns_of_leftInverse mixColumn_invMixColumn S

/-- Settles O25: the four pairs, each undone byte by byte or column by column. -/
theorem transformInversePairs : Obligations.TransformInversePairs := by
  unfold Obligations.TransformInversePairs
  intro S K
  exact ⟨addRoundKey_addRoundKey S K, invSubBytes_subBytes S, subBytes_invSubBytes S, invShiftRows_shiftRows S,
    shiftRows_invShiftRows S, invMixColumns_mixColumns S, mixColumns_invMixColumns S⟩

end Sys2Proof.Machine
end

section
/-!
PROOFS. The accept of ENCRYPT and DECRYPT (42_cipher_datapath.md R170, R172, R174; 60_exceptions.md R202, R203, R205).
-/

namespace Sys2Proof.Machine

/-- On an idle engine a payload of any length but 16 is the error InvalidBlockLength, whatever the key flag (R202, R205). -/
theorem acceptBlock_of_length_ne {start : Block → State → State} {s : State} {data : List Byte} (hop : s.op = .idle)
    (hlen : data.length ≠ 16) : acceptBlock start data s = .next (s.raiseError .invalidBlockLength) := by
  simp [acceptBlock, hop, blockOf_eq_none.2 hlen]

/-- On an idle engine a block without a valid key is the error UninitializedKey (R203). -/
theorem acceptBlock_of_keyInvalid {start : Block → State → State} {s : State} (hop : s.op = .idle)
    (hkey : s.keyValid = false) (block : Block) :
    acceptBlock start block.toList s = .next (s.raiseError .uninitializedKey) := by
  simp [acceptBlock, hop, hkey]

/-- On an idle engine with a valid key a block starts its command (R174). -/
theorem acceptBlock_of_keyValid {start : Block → State → State} {s : State} (hop : s.op = .idle)
    (hkey : s.keyValid = true) (block : Block) : acceptBlock start block.toList s = .next (start block s) := by
  simp [acceptBlock, hop, hkey]

/-- A payload of 16 bytes is the bytes of a block (R67). -/
theorem exists_block_of_length_eq {data : List Byte} (hlen : data.length = 16) : ∃ b : Block, data = b.toList :=
  ⟨⟨data.toArray, hlen⟩, rfl⟩

/-- Settles O26: the three outcomes of the accept, with byte `i` of the block at row `i mod 4`, column `i / 4`. -/
theorem blockCommandAccept : Obligations.BlockCommandAccept := by
  unfold Obligations.BlockCommandAccept
  intro s data hop
  refine ⟨fun hlen => ⟨acceptBlock_of_length_ne hop hlen, acceptBlock_of_length_ne hop hlen⟩,
    fun hlen hkey => ?_, fun hlen hkey => ?_⟩ <;> obtain ⟨b, rfl⟩ := exists_block_of_length_eq hlen
  · exact ⟨acceptBlock_of_keyInvalid hop hkey b, acceptBlock_of_keyInvalid hop hkey b⟩
  · refine ⟨toMatrix b, acceptBlock_of_keyValid hop hkey b, acceptBlock_of_keyValid hop hkey b, fun i hi => ?_⟩
    have hbyte : i % 4 + 4 * (i / 4) = i := by omega
    simp only [toMatrix_get, hbyte, Vector.getElem_toList]

end Sys2Proof.Machine
end

section
/-!
PROOFS. The walks of an encryption and a decryption: their 41 positions in order, and the engine's way along them
(42_cipher_datapath.md R176 to R178).
-/

namespace Sys2Proof.Machine

/-! ## Following a partial function along a list -/

/-- Where each entry of a list leads to the one after it, and the last one nowhere, following the lead `n` times from the
first entry gives entry `n`. -/
theorem iterate_bind_eq_getElem? {α : Type} {next : α → Option α} {l : List α} {p : α} (hstart : l[0]? = some p)
    (hnext : ∀ n < l.length, l[n]?.bind next = l[n + 1]?) (n : ℕ) :
    (fun q : Option α => q.bind next)^[n] (some p) = l[n]? := by
  induction n with
  | zero => exact hstart.symm
  | succ n ih =>
    rw [Function.iterate_succ_apply', ih]
    by_cases hn : n < l.length
    · exact hnext n hn
    · rw [List.getElem?_eq_none (by omega), List.getElem?_eq_none (by omega), Option.bind_none]

/-- Such a list without duplicates is what is visited: each entry once, and then the way ends. -/
theorem iterate_bind_visits {α : Type} {next : α → Option α} {l : List α} {p : α} (hstart : l[0]? = some p)
    (hnext : ∀ n < l.length, l[n]?.bind next = l[n + 1]?) (hnodup : l.Nodup) :
    let pos (n : ℕ) : Option α := (fun q : Option α => q.bind next)^[n] (some p)
    (∀ m n, m < l.length → n < l.length → pos m = pos n → m = n) ∧ pos l.length = none ∧
      ∀ q, (∃ n, n < l.length ∧ pos n = some q) ↔ q ∈ l := by
  simp only [iterate_bind_eq_getElem? hstart hnext]
  refine ⟨fun m n hm _ heq => (List.getElem?_inj hm hnodup).1 heq, List.getElem?_eq_none le_rfl, fun q => ?_⟩
  rw [List.mem_iff_getElem?]
  exact ⟨fun ⟨n, _, hn⟩ => ⟨n, hn⟩, fun ⟨n, hn⟩ => ⟨n, (List.getElem?_eq_some_iff.1 hn).1, hn⟩⟩

/-! ## The positions -/

/-- The positions of an encryption in the order of R171. -/
def encryptWalk : List (BitVec 4 × BitVec 4) :=
  [(0, codeAddRoundKey)] ++
  ([1, 2, 3, 4, 5, 6, 7, 8, 9] : List (BitVec 4)).flatMap (fun r =>
    [(r, codeSubBytes), (r, codeShiftRows), (r, codeMixColumns), (r, codeAddRoundKey)]) ++
  [(10, codeSubBytes), (10, codeShiftRows), (10, codeAddRoundKey), (10, codeStoreState)]

/-- The positions of a decryption in the order of R173. -/
def decryptWalk : List (BitVec 4 × BitVec 4) :=
  [(10, codeAddRoundKey), (10, codeInvShiftRows), (10, codeInvSubBytes)] ++
  ([9, 8, 7, 6, 5, 4, 3, 2, 1] : List (BitVec 4)).flatMap (fun r =>
    [(r, codeAddRoundKey), (r, codeInvMixColumns), (r, codeInvShiftRows), (r, codeInvSubBytes)]) ++
  [(0, codeAddRoundKey), (0, codeStoreState)]

/-- The positions of the operation in progress. -/
def walk : Op → List (BitVec 4 × BitVec 4)
  | .enc => encryptWalk
  | .dec => decryptWalk
  | .idle => []
  | .keyExp => []

/-- The next position in the operation in progress: by the table of R176 in ENC, by that of R177 in DEC. -/
def nextPosition : Op → BitVec 4 × BitVec 4 → Option (BitVec 4 × BitVec 4)
  | .enc, p => nextEncrypt p.1 p.2
  | .dec, p => nextDecrypt p.1 p.2
  | .idle, _ => none
  | .keyExp, _ => none

/-- The sequencer's tables lead along the walk, one position after another, and end with it (R176, R177). -/
theorem walk_next (o : Op) : ∀ n < (walk o).length, (walk o)[n]?.bind (nextPosition o) = (walk o)[n + 1]? := by
  cases o <;> decide

theorem walk_nodup (o : Op) : (walk o).Nodup := by
  cases o <;> decide

theorem mem_encryptWalk (r k : BitVec 4) : (r, k) ∈ encryptWalk ↔
    (r = 0 ∧ k = codeAddRoundKey) ∨
    ((k = codeSubBytes ∨ k = codeShiftRows ∨ k = codeAddRoundKey) ∧ 1 ≤ r ∧ r ≤ 10) ∨
    (k = codeMixColumns ∧ 1 ≤ r ∧ r ≤ 9) ∨ (r = 10 ∧ k = codeStoreState) := by
  revert r k
  exact forall_position (by decide)

theorem mem_decryptWalk (r k : BitVec 4) : (r, k) ∈ decryptWalk ↔
    (k = codeAddRoundKey ∧ r ≤ 10) ∨
    ((k = codeInvShiftRows ∨ k = codeInvSubBytes) ∧ 1 ≤ r ∧ r ≤ 10) ∨
    (k = codeInvMixColumns ∧ 1 ≤ r ∧ r ≤ 9) ∨ (r = 0 ∧ k = codeStoreState) := by
  revert r k
  exact forall_position (by decide)

/-! ## The rows of the tables -/

/-- The table of R176, row by row. -/
theorem nextEncrypt_rows (r : BitVec 4) :
    (r ≤ 9 → nextEncrypt r codeAddRoundKey = some (r + 1, codeSubBytes)) ∧
    (r = 10 → nextEncrypt r codeAddRoundKey = some (10, codeStoreState)) ∧
    (1 ≤ r → r ≤ 10 → nextEncrypt r codeSubBytes = some (r, codeShiftRows)) ∧
    (1 ≤ r → r ≤ 9 → nextEncrypt r codeShiftRows = some (r, codeMixColumns)) ∧
    (r = 10 → nextEncrypt r codeShiftRows = some (10, codeAddRoundKey)) ∧
    (1 ≤ r → r ≤ 9 → nextEncrypt r codeMixColumns = some (r, codeAddRoundKey)) := by
  refine ⟨?_, ?_, ?_, ?_, ?_, ?_⟩ <;> revert r <;> decide

/-- The table of R177, row by row. -/
theorem nextDecrypt_rows (r : BitVec 4) :
    (r = 10 → nextDecrypt r codeAddRoundKey = some (10, codeInvShiftRows)) ∧
    (1 ≤ r → r ≤ 9 → nextDecrypt r codeAddRoundKey = some (r, codeInvMixColumns)) ∧
    (1 ≤ r → r ≤ 9 → nextDecrypt r codeInvMixColumns = some (r, codeInvShiftRows)) ∧
    (1 ≤ r → r ≤ 10 → nextDecrypt r codeInvShiftRows = some (r, codeInvSubBytes)) ∧
    (1 ≤ r → r ≤ 10 → nextDecrypt r codeInvSubBytes = some (r - 1, codeAddRoundKey)) ∧
    (r = 0 → nextDecrypt r codeAddRoundKey = some (0, codeStoreState)) := by
  refine ⟨?_, ?_, ?_, ?_, ?_, ?_⟩ <;> revert r <;> decide

/-- Only positions on the walk before its end have a next one (R176). -/
theorem nextEncrypt_isSome {r u : BitVec 4} (h : (nextEncrypt r u).isSome) :
    onEncryptWalk r u ∧ u ≠ codeStoreState := by
  have key := forall_position (P := fun r u => (nextEncrypt r u).isSome → onEncryptWalk r u ∧ u ≠ codeStoreState)
    (by unfold onEncryptWalk; decide)
  exact key r u h

/-- Only positions on the walk before its end have a next one (R177). -/
theorem nextDecrypt_isSome {r u : BitVec 4} (h : (nextDecrypt r u).isSome) :
    onDecryptWalk r u ∧ u ≠ codeStoreState := by
  have key := forall_position (P := fun r u => (nextDecrypt r u).isSome → onDecryptWalk r u ∧ u ≠ codeStoreState)
    (by unfold onDecryptWalk; decide)
  exact key r u h

/-! ## The engine at a position -/

/-- A position with a transform decodes to the micro-operation that performs it (R100, R178). -/
theorem exec_of_transformAt {s : State} {S' : StateMatrix} (hS : transformAt s.W s.rnd s.uop s.S = some S') :
    ∃ i, decode (.code s.uop) = .ok i ∧ exec i s = .next (s.setMatrix S') := by
  unfold transformAt at hS
  split at hS
  · rename_i hu
    split at hS <;> cases hS
    rename_i hr
    exact ⟨.addRoundKey, by rw [hu]; rfl, dif_pos hr⟩
  · repeat' split at hS
    all_goals cases hS
    all_goals rename_i hu; rw [hu]; exact ⟨_, rfl, rfl⟩

/-- In ENC and DEC the engine performs the micro-operation `UOP` names and moves on (R178). -/
theorem engineStep_of_code {s t : State} {i : Instr} (hop : s.op = .enc ∨ s.op = .dec)
    (hdecode : decode (.code s.uop) = .ok i) (hexec : exec i s = .next t) : engineStep s = advance s t := by
  have hfetch : fetch s = .run i := by
    obtain hop | hop := hop <;> simp only [fetch, hop, hdecode, fetched]
  simp only [engineStep, hfetch, hexec]

/-- Only ENC and DEC have a next position, and a position that has one has a transform (R178). -/
theorem transformAt_of_nextPosition {o : Op} {r u : BitVec 4} {p : BitVec 4 × BitVec 4}
    (h : nextPosition o (r, u) = some p) (W : Table) (S : StateMatrix) :
    (o = .enc ∨ o = .dec) ∧ u ≠ codeStoreState ∧ ∃ S', transformAt W r u S = some S' := by
  cases o with
  | idle => cases h
  | keyExp => cases h
  | enc =>
    obtain ⟨hon, hstore⟩ := nextEncrypt_isSome (Option.isSome_of_eq_some h)
    exact ⟨.inl rfl, hstore, Option.isSome_iff_exists.1 (onEncryptWalk_goes hon hstore W S).2⟩
  | dec =>
    obtain ⟨hon, hstore⟩ := nextDecrypt_isSome (Option.isSome_of_eq_some h)
    exact ⟨.inr rfl, hstore, Option.isSome_iff_exists.1 (onDecryptWalk_goes hon hstore W S).2⟩

/-- After its micro-operation the engine moves to the next position (R178). -/
theorem advance_of_nextPosition {s t : State} {r k : BitVec 4} (hstore : s.uop ≠ codeStoreState)
    (h : nextPosition s.op (s.rnd, s.uop) = some (r, k)) : advance s t = .next (t.setPosition r k) := by
  rcases hop : s.op with _ | _ | _ | _ <;> simp only [hop, nextPosition] at h
  case idle => cases h
  case keyExp => cases h
  case enc => simp only [advance, hop, hstore, if_false, h, moveTo]
  case dec => simp only [advance, hop, hstore, if_false, h, moveTo]

/-- At a position with a next one the engine performs its transform and goes to that next one; nothing but the matrix and
the position changes (R176 to R178). -/
theorem engineStep_of_nextPosition {s : State} {r k : BitVec 4}
    (h : nextPosition s.op (s.rnd, s.uop) = some (r, k)) :
    ∃ S', transformAt s.W s.rnd s.uop s.S = some S' ∧ engineStep s = .next ((s.setMatrix S').setPosition r k) := by
  obtain ⟨hop, hstore, S', hS⟩ := transformAt_of_nextPosition h s.W s.S
  obtain ⟨i, hdecode, hexec⟩ := exec_of_transformAt hS
  exact ⟨S', hS, (engineStep_of_code hop hdecode hexec).trans (advance_of_nextPosition hstore h)⟩

/-- At STORE_STATE the engine answers the block and is idle (R175). -/
theorem engineStep_of_storeState {s : State} (hop : s.op = .enc ∨ s.op = .dec) (hu : s.uop = codeStoreState) :
    engineStep s = .next ((s.respond .ok (fromMatrix s.S).toList).setOp .idle) := by
  have hexec : exec .storeState s = .next ((s.respond .ok (fromMatrix s.S).toList).setOp .idle) :=
    if_pos ⟨hop, hu⟩
  rw [engineStep_of_code hop (by rw [hu]; rfl) hexec]
  obtain hop | hop := hop <;> simp only [advance, hop, hu, if_true]

/-! ## The steps -/

/-- With no host action to come the step is the engine's transition. -/
theorem step_of_plan_nil {s : State} (hplan : s.plan = []) : step s = engineStep s :=
  step_of_engineTurn (by simp only [hostTurn, hplan])

/-- With no host action to come a position with a next one leads there, in the same operation. -/
theorem step_goes {s : State} {o : Op} {u r k : BitVec 4} (hplan : s.plan = []) (hop : s.op = o) (hu : s.uop = u)
    (h : nextPosition o (s.rnd, u) = some (r, k)) : ∃ t, step s = .next t ∧ t.op = o ∧ t.rnd = r ∧ t.uop = k := by
  subst hop hu
  obtain ⟨S', -, hstep⟩ := engineStep_of_nextPosition h
  exact ⟨_, (step_of_plan_nil hplan).trans hstep, rfl, rfl, rfl⟩

/-- With no host action to come STORE_STATE leaves the engine idle. -/
theorem step_storeState_idle {s : State} (hplan : s.plan = []) (hop : s.op = .enc ∨ s.op = .dec)
    (hu : s.uop = codeStoreState) : ∃ t, step s = .next t ∧ t.op = .idle :=
  ⟨_, (step_of_plan_nil hplan).trans (engineStep_of_storeState hop hu), rfl⟩

/-! ## The obligations -/

/-- Settles O31: the table leads along `encryptWalk`, which lists the positions of R176, and the engine goes where the
table leads. -/
theorem encryptWalkFollowsTheTable : Obligations.EncryptWalkFollowsTheTable := by
  unfold Obligations.EncryptWalkFollowsTheTable
  obtain ⟨hinj, hend, hvisited⟩ := iterate_bind_visits (p := (0, codeAddRoundKey)) rfl (walk_next .enc) (walk_nodup .enc)
  refine ⟨⟨hinj, hend, fun r k => (hvisited (r, k)).trans (mem_encryptWalk r k)⟩, fun s hplan hop => ?_⟩
  have goes {u r k : BitVec 4} (hu : s.uop = u) (hnext : nextEncrypt s.rnd u = some (r, k)) :=
    step_goes hplan hop hu hnext
  obtain ⟨hkey, hkeyLast, hsub, hshift, hshiftLast, hmix⟩ := nextEncrypt_rows s.rnd
  refine ⟨fun hr hu => goes hu (by rw [hr]; rfl), fun h1 h hu => goes hu (hsub h1 h),
    fun h1 h hu => goes hu (hshift h1 h), fun hr hu => goes hu (hshiftLast hr), fun h1 h hu => goes hu (hmix h1 h),
    fun _ h hu => goes hu (hkey h), fun hr hu => goes hu (hkeyLast hr),
    fun _ hu => step_storeState_idle hplan (.inl hop) hu⟩

/-- Settles O32: the table leads along `decryptWalk`, which lists the positions of R177, and the engine goes where the
table leads. -/
theorem decryptWalkFollowsTheTable : Obligations.DecryptWalkFollowsTheTable := by
  unfold Obligations.DecryptWalkFollowsTheTable
  obtain ⟨hinj, hend, hvisited⟩ := iterate_bind_visits (p := (10, codeAddRoundKey)) rfl (walk_next .dec) (walk_nodup .dec)
  refine ⟨⟨hinj, hend, fun r k => (hvisited (r, k)).trans (mem_decryptWalk r k)⟩, fun s hplan hop => ?_⟩
  have goes {u r k : BitVec 4} (hu : s.uop = u) (hnext : nextDecrypt s.rnd u = some (r, k)) :=
    step_goes hplan hop hu hnext
  obtain ⟨hkeyFirst, hkey, hmix, hshift, hsub, hkeyLast⟩ := nextDecrypt_rows s.rnd
  refine ⟨fun hr hu => goes hu (hkeyFirst hr), fun h1 h hu => goes hu (hkey h1 h), fun h1 h hu => goes hu (hmix h1 h),
    fun h1 h hu => goes hu (hshift h1 h), fun h1 h hu => goes hu (hsub h1 h), fun hr hu => goes hu (hkeyLast hr),
    fun _ hu => step_storeState_idle hplan (.inr hop) hu⟩

end Sys2Proof.Machine
end

section
/-!
PROOFS. How many steps a command takes: runs along a walk and through a key expansion, and the accept of each command a
message can hold (42_cipher_datapath.md R178, R185; 40_key_schedule.md R126, R127).
-/

namespace Sys2Proof.Machine

/-! ## Runs -/

/-- A run goes on from where its first step leads. -/
theorem run_succ_of_step {M : Host.Core} {s u : M.State} (h : M.step s = .next u) (n : ℕ) :
    M.run (n + 1) s = M.run n u := by
  rw [Host.Core.run, h]

/-- A run of one step more takes that step where the shorter run ends. -/
theorem run_succ_of_run {M : Host.Core} {n : ℕ} {s t : M.State} (h : M.run n s = .next t) :
    M.run (n + 1) s = M.step t := by
  induction n generalizing s with
  | zero => cases h; rw [Host.Core.run]; cases M.step t <;> rfl
  | succ n ih =>
    rcases hstep : M.step s with u | f | f
    · rw [run_succ_of_step hstep] at h ⊢
      exact ih h
    · rw [Host.Core.run, hstep] at h; cases h
    · rw [Host.Core.run, hstep] at h; cases h

/-- With no host action to come a run of one step more is one transition of the engine where the shorter run ends. -/
theorem run_succ_of_engineStep {n : ℕ} {s t u : State} (hrun : Host.Core.run Sys2Proof.core n s = .next t)
    (hplan : t.plan = []) (hstep : engineStep t = .next u) : Host.Core.run Sys2Proof.core (n + 1) s = .next u :=
  (run_succ_of_run hrun).trans ((step_of_plan_nil hplan).trans hstep)

/-! ## Along a walk -/

/-- A position is STORE_STATE exactly at the end of its walk. -/
theorem walk_storeState {o : Op} {n : ℕ} {r k : BitVec 4} (h : (walk o)[n]? = some (r, k)) :
    k = codeStoreState ↔ n = 40 := by
  have key : ∀ n < (walk o).length, (walk o)[n]?.map Prod.snd = some codeStoreState ↔ n = 40 := by
    cases o <;> decide
  simpa [h] using key n (List.getElem?_eq_some_iff.1 h).1

/-- From the first position of its walk, and with no host action to come, the engine is at position `n` of it after `n`
steps; nothing but the matrix and the position has changed (R176 to R178). -/
theorem run_walk {s : State} (hplan : s.plan = []) (hstart : (walk s.op)[0]? = some (s.rnd, s.uop)) {n : ℕ}
    {r k : BitVec 4} (h : (walk s.op)[n]? = some (r, k)) :
    ∃ S', Host.Core.run Sys2Proof.core n s = .next ((s.setMatrix S').setPosition r k) := by
  induction n generalizing r k with
  | zero =>
    cases hstart.symm.trans h
    exact ⟨s.S, rfl⟩
  | succ n ih =>
    have hn : n < (walk s.op).length := Nat.lt_of_succ_lt (List.getElem?_eq_some_iff.1 h).1
    obtain ⟨⟨r₀, k₀⟩, hpos, hnext⟩ := Option.bind_eq_some_iff.1 ((walk_next s.op n hn).trans h)
    obtain ⟨S₀, hrun⟩ := ih hpos
    obtain ⟨S', -, hstep⟩ := engineStep_of_nextPosition (s := (s.setMatrix S₀).setPosition r₀ k₀) hnext
    exact ⟨S', run_succ_of_engineStep hrun hplan hstep⟩

/-! ## Through a key expansion -/

/-- In a key expansion whose words are not all written the engine's transition is one turn of the expansion's loop
(R126, R178). -/
theorem engineStep_of_ksWord {s : State} {i : ℕ} (h4 : 4 ≤ i) (h : i < 44) (hop : s.op = .keyExp)
    (hki : s.ki = BitVec.ofNat 6 i) :
    engineStep s = .next ((s.setTable (expandStep s.W i)).setKi (BitVec.ofNat 6 (i + 1))) := by
  have hle : s.ki ≤ 43 := by rw [hki]; bv_omega
  have hfetch : fetch s = .run .ksWord := by simp only [fetch, hop, hle, if_true]
  simp only [engineStep, hfetch, exec, execKsWord_of_ki h4 h hop hki, advance, hop, expandStep_eq_set _ h4 h]

/-- In a key expansion whose words are all written the engine's transition ends it (R127, R178). -/
theorem engineStep_of_ksDone {s : State} (hop : s.op = .keyExp) (hki : s.ki = 44) :
    engineStep s = .next (((s.setKeyValid true).setOp .idle).respond .ok []) := by
  have hfetch : fetch s = .run .ksDone := by simp [fetch, hop, hki]
  simp [engineStep, hfetch, exec, execKsDone, advance, hop, hki]

/-- From the start of a key expansion, and with no host action to come, `n` steps are `n` turns of the loop. -/
theorem run_expansion {s : State} (hplan : s.plan = []) (hop : s.op = .keyExp) (hki : s.ki = 4) {n : ℕ} (hn : n ≤ 40) :
    Host.Core.run Sys2Proof.core n s =
      .next ((s.setTable ((List.range' 4 n).foldl expandStep s.W)).setKi (BitVec.ofNat 6 (4 + n))) := by
  induction n with
  | zero =>
    have hfour : s.ki = BitVec.ofNat 6 (4 + 0) := hki
    rw [← hfour]; rfl
  | succ n ih =>
    have hstep := engineStep_of_ksWord (i := 4 + n)
      (s := (s.setTable ((List.range' 4 n).foldl expandStep s.W)).setKi (BitVec.ofNat 6 (4 + n)))
      (by omega) (by omega) hop rfl
    have hloop : (List.range' 4 (n + 1)).foldl expandStep s.W =
        expandStep ((List.range' 4 n).foldl expandStep s.W) (4 + n) := by simp [List.range'_concat]
    rw [hloop]
    exact run_succ_of_engineStep (ih (by omega)) hplan hstep

/-! ## A command that was started -/

/-- Where the accept of a valid command leaves the engine: at word 4 of a key expansion, or at the first position of a
walk. -/
def AtStart (s : State) : Prop :=
  (s.op = .keyExp ∧ s.ki = 4) ∨ ((s.op = .enc ∨ s.op = .dec) ∧ (walk s.op)[0]? = some (s.rnd, s.uop))

theorem AtStart.op_ne_idle {s : State} (h : AtStart s) : s.op ≠ .idle := by
  obtain ⟨hop, -⟩ | ⟨hop | hop, -⟩ := h <;> simp [hop]

/-- For 40 steps the operation goes on and there is no response; its last step is still to come exactly after these. -/
theorem AtStart.run_busy {s : State} (h : AtStart s) (hplan : s.plan = []) {n : ℕ} (hn : n ≤ 40) :
    ∃ t, Host.Core.run Sys2Proof.core n s = .next t ∧ t.op = s.op ∧ t.rsp = s.rsp ∧
      (t.op = .keyExp → (t.ki ≤ 43 ↔ n < 40)) ∧ (t.op ≠ .keyExp → (t.uop = codeStoreState ↔ n = 40)) := by
  obtain ⟨hop, hki⟩ | ⟨hop, hstart⟩ := h
  · refine ⟨_, run_expansion hplan hop hki hn, rfl, rfl, fun _ => ?_, fun hne => absurd hop hne⟩
    rw [State.setKi_ki]
    bv_omega
  · have hlen : n < (walk s.op).length := by
      obtain hop | hop := hop <;> rw [hop] <;> exact Nat.lt_succ_of_le hn
    have hpos : (walk s.op)[n]? = some (_, _) := List.getElem?_eq_getElem hlen
    obtain ⟨S', hrun⟩ := run_walk hplan hstart hpos
    refine ⟨_, hrun, rfl, rfl, fun hkey => ?_, fun _ => walk_storeState hpos⟩
    have hne : s.op ≠ .keyExp := by obtain hop | hop := hop <;> simp [hop]
    exact absurd hkey hne

/-- The step after these ends the operation, with one response. -/
theorem AtStart.run_end {s : State} (h : AtStart s) (hplan : s.plan = []) :
    ∃ t r, Host.Core.run Sys2Proof.core 41 s = .next t ∧ t.op = .idle ∧ t.rsp = s.rsp ++ [r] := by
  obtain ⟨hop, hki⟩ | ⟨hop, hstart⟩ := h
  · have hrun := run_expansion hplan hop hki (le_refl 40)
    generalize (List.range' 4 40).foldl expandStep s.W = W' at hrun
    exact ⟨_, _, run_succ_of_engineStep hrun hplan (engineStep_of_ksDone hop rfl), rfl, rfl⟩
  · obtain ⟨r, hend⟩ : ∃ r, (walk s.op)[40]? = some (r, codeStoreState) := by
      obtain hop | hop := hop <;> rw [hop] <;> exact ⟨_, rfl⟩
    obtain ⟨S', hrun⟩ := run_walk hplan hstart hend
    exact ⟨_, _, run_succ_of_engineStep hrun hplan (engineStep_of_storeState hop rfl), rfl, rfl⟩

/-! ## The accept -/

/-- An idle engine performs the command it holds (R178). -/
theorem engineStep_of_command {s : State} {opc : Byte} {data : List Byte} {i : Instr} (hop : s.op = .idle)
    (hcmd : s.cmd = some (encodeMessage opc data)) (hlen : data.length ≤ 255) (hdecode : decodeOpcode opc data = .ok i) :
    engineStep s = exec i s := by
  have hfetch : fetch s = .run i := by
    rw [fetch_of_held hop hcmd, decode_encodeMessage opc hlen, hdecode, fetched]
  simp only [engineStep, hfetch, advance, hop]
  cases exec i s <;> rfl

/-- A command of a wrong length, without the key it needs, or with a reserved code is answered in its accept by an error
(R201 to R204). -/
theorem engineStep_of_invalidCommand {s : State} {opc : Byte} {data : List Byte} (hop : s.op = .idle)
    (hcmd : s.cmd = some (encodeMessage opc data)) (hlen : data.length ≤ 255)
    (hinvalid : data.length ≠ 16 ∨ ((opc = 0x02 ∨ opc = 0x03) ∧ s.keyValid = false) ∨
      (opc ≠ 0x01 ∧ opc ≠ 0x02 ∧ opc ≠ 0x03)) : ∃ e, engineStep s = .next (s.raiseError e) := by
  by_cases hreserved : opc ≠ 0x01 ∧ opc ≠ 0x02 ∧ opc ≠ 0x03
  · obtain ⟨hkey, henc, hdec⟩ := hreserved
    exact ⟨.illegalCommand, engineStep_of_reservedOpcode hop hcmd
      ((decode_encodeMessage opc hlen).trans (decodeOpcode_reserved data hkey henc hdec))⟩
  by_cases hsize : data.length = 16
  · obtain ⟨hblock, hkey⟩ : (opc = 0x02 ∨ opc = 0x03) ∧ s.keyValid = false := by tauto
    obtain ⟨b, rfl⟩ := exists_block_of_length_eq hsize
    refine ⟨.uninitializedKey, ?_⟩
    obtain rfl | rfl := hblock
    · exact (engineStep_of_command hop hcmd hlen rfl).trans (acceptBlock_of_keyInvalid hop hkey b)
    · exact (engineStep_of_command hop hcmd hlen rfl).trans (acceptBlock_of_keyInvalid hop hkey b)
  · obtain rfl | rfl | rfl : opc = 0x01 ∨ opc = 0x02 ∨ opc = 0x03 := by tauto
    · exact ⟨_, (engineStep_of_command hop hcmd hlen rfl).trans (execLoadKey_of_length_ne hop hsize)⟩
    · exact ⟨_, (engineStep_of_command hop hcmd hlen rfl).trans (acceptBlock_of_length_ne hop hsize)⟩
    · exact ⟨_, (engineStep_of_command hop hcmd hlen rfl).trans (acceptBlock_of_length_ne hop hsize)⟩

/-- The accept of a valid command starts its operation and answers nothing (R125, R174). -/
theorem engineStep_of_validCommand {s : State} {opc : Byte} {data : List Byte} (hop : s.op = .idle)
    (hcmd : s.cmd = some (encodeMessage opc data)) (hsize : data.length = 16)
    (hvalid : opc = 0x01 ∨ ((opc = 0x02 ∨ opc = 0x03) ∧ s.keyValid = true)) :
    ∃ u, engineStep s = .next u ∧ AtStart u ∧ u.plan = s.plan ∧ u.rsp = s.rsp ∧ (opc = 0x01 → u.op = .keyExp) ∧
      (opc = 0x02 → u.op = .enc) ∧ (opc = 0x03 → u.op = .dec) := by
  have hlen : data.length ≤ 255 := by omega
  obtain ⟨b, rfl⟩ := exists_block_of_length_eq hsize
  obtain rfl | ⟨rfl | rfl, hkey⟩ := hvalid
  · exact ⟨startExpansion b s, (engineStep_of_command hop hcmd hlen rfl).trans (execLoadKey_of_key hop b),
      .inl ⟨rfl, rfl⟩, rfl, rfl, by simp [startExpansion]⟩
  · exact ⟨startEncrypt b s, (engineStep_of_command hop hcmd hlen rfl).trans (acceptBlock_of_keyValid hop hkey b),
      .inr ⟨.inl rfl, rfl⟩, rfl, rfl, by simp [startEncrypt]⟩
  · exact ⟨startDecrypt b s, (engineStep_of_command hop hcmd hlen rfl).trans (acceptBlock_of_keyValid hop hkey b),
      .inr ⟨.inr rfl, rfl⟩, rfl, rfl, by simp [startDecrypt]⟩

/-- Settles O45: the first step is the accept, and after that of a valid command the operation it started takes 41. -/
theorem commandsTakeFortyOneSteps : Obligations.CommandsTakeFortyOneSteps := by
  unfold Obligations.CommandsTakeFortyOneSteps
  intro s opc data hplan hop hcmd hlen
  refine ⟨fun hsize hvalid => ?_, fun hinvalid => ?_⟩
  · obtain ⟨u, haccept, hstart, huplan, hursp, hload, henc, hdec⟩ := engineStep_of_validCommand hop hcmd hsize hvalid
    have hstep : step s = .next u := (step_of_plan_nil hplan).trans haccept
    rw [← hursp]
    refine ⟨fun n h1 hn => ?_, ?_⟩
    · obtain ⟨m, rfl⟩ : ∃ m, n = m + 1 := ⟨n - 1, by omega⟩
      obtain ⟨t, hrun, htop, hrsp, hki, huop⟩ := hstart.run_busy (huplan.trans hplan) (n := m) (by omega)
      refine ⟨t, (run_succ_of_step (M := Sys2Proof.core) hstep m).trans hrun, ?_, hrsp, fun h => ?_, fun h => ?_,
        fun h => ?_⟩
      · exact busy_eq_true.2 (htop ▸ hstart.op_ne_idle)
      · have hkeyExp := htop.trans (hload h)
        exact ⟨hkeyExp, hki hkeyExp⟩
      · have hopEnc := htop.trans (henc h)
        exact ⟨hopEnc, (huop (by simp [hopEnc])).trans (by omega)⟩
      · have hopDec := htop.trans (hdec h)
        exact ⟨hopDec, (huop (by simp [hopDec])).trans (by omega)⟩
    · obtain ⟨t, r, hrun, hidle, hrsp⟩ := hstart.run_end (huplan.trans hplan)
      exact ⟨t, r, (run_succ_of_step (M := Sys2Proof.core) hstep 41).trans hrun, hidle, hrsp⟩
  · obtain ⟨e, hraise⟩ := engineStep_of_invalidCommand hop hcmd hlen hinvalid
    exact ⟨s.raiseError e, _, run_succ_of_engineStep (n := 0) rfl hplan hraise, hop, rfl⟩

end Sys2Proof.Machine
end

section
/-!
PROOFS. The encodings: a command message and its bytes, the codes of the micro-operations, reserved encodings, and the bytes
of a response (30_encoding.md R91 to R94, R97, R100; 60_exceptions.md R200).
-/

namespace Sys2Proof

/-! ## Instructions -/

/-- The payload of a well-formed command fits `LEN`, so its message decodes by its operation code; a micro-operation is
found under its own code. -/
theorem decode_encode {i : Instr} (h : i.wellFormed = true) : decode (encode i) = .ok i := by
  cases i with
  | loadKey d => exact decode_encodeMessage 0x01 (of_decide_eq_true h)
  | encrypt d => exact decode_encodeMessage 0x02 (of_decide_eq_true h)
  | decrypt d => exact decode_encodeMessage 0x03 (of_decide_eq_true h)
  | _ => rfl

/-- An instruction written as a code has no payload that could be too long. -/
theorem wellFormed_of_encode_code {i : Instr} {c : BitVec 4} (h : encode i = .code c) : i.wellFormed = true := by
  cases i with
  | loadKey d => cases h
  | encrypt d => cases h
  | decrypt d => cases h
  | _ => rfl

/-- A message that decodes is what its instruction is written as, and carries no more than 255 bytes (R91, R94). -/
theorem encode_of_decodeMessage {bytes : List Byte} {i : Instr} (h : decodeMessage bytes = .ok i) :
    i.wellFormed = true ∧ encode i = .message bytes := by
  obtain ⟨data, hlen, -, ⟨rfl, rfl⟩ | ⟨rfl, rfl⟩ | ⟨rfl, rfl⟩⟩ := Machine.decodeMessage_ok h <;>
    exact ⟨decide_eq_true hlen, rfl⟩

/-- Settles O1: both ways, for messages and for codes. -/
theorem decodeAndEncodeAgree : Obligations.DecodeAndEncodeAgree := by
  unfold Obligations.DecodeAndEncodeAgree
  refine ⟨fun i => decode_encode, fun e i h => ?_⟩
  cases e with
  | message bytes => exact encode_of_decodeMessage h
  | code c =>
    have hcode : encode i = .code c := Machine.decodeMicroOp_ok h
    exact ⟨wellFormed_of_encode_code hcode, hcode⟩

/-- Settles O2: each word is the encoding of its instruction. -/
theorem sampleWordsDecode : Obligations.SampleWordsDecode := by
  unfold Obligations.SampleWordsDecode
  have hsample (i : Instr) (h : i.wellFormed = true) : decode (encode i) = .ok i := decode_encode h
  exact ⟨hsample (.loadKey [0xAB, 0xCD]) rfl, hsample (.encrypt [0x7F]) rfl, hsample (.decrypt []) rfl,
    hsample .ksWord rfl, hsample .addRoundKey rfl, hsample .invMixColumns rfl, hsample .storeState rfl⟩

/-- The codes 0xC to 0xF name no micro-operation (R100). -/
theorem decodeMicroOp_unused : ∀ c : BitVec 4, 0xC ≤ c → decodeMicroOp c = .error (.unusedMicroOp c) := by
  decide

/-- Settles O3: a message decodes by its operation code, and a reserved one or an unused code is named. -/
theorem reservedEncodingsRejected : Obligations.ReservedEncodingsRejected := by
  unfold Obligations.ReservedEncodingsRejected
  refine ⟨fun opc data hlen hkey henc hdec => ?_, decodeMicroOp_unused⟩
  exact (decode_encodeMessage opc hlen).trans (decodeOpcode_reserved data hkey henc hdec)

/-- Settles O4: a response's second byte is the length of its payload, which is 16 for a block (R92). -/
theorem responseBytesAndStatusCodes : Obligations.ResponseBytesAndStatusCodes := by
  unfold Obligations.ResponseBytesAndStatusCodes
  refine ⟨rfl, rfl, rfl, rfl, rfl, fun e => rfl, rfl, fun b => ?_⟩
  simp [Machine.Response.bytes, Machine.Status.code]

end Sys2Proof
end

section
/-!
PROOFS. The expansion as a table: the key in its first four words, the recurrence that fixes the rest, and a table written up
to some word (40_key_schedule.md R121, R128, R129; 10_state.md R39).
-/

namespace Sys2Proof

/-! ## The key of a table -/

/-- A table whose first four words are the words of a key has that key (R64, R129). -/
theorem keyOfTable_eq_of_keyWords {W : Table} {key : Block}
    (h : ∀ (c : Nat) (hc : c < 4), W[c] = keyWord key ⟨c, hc⟩) : keyOfTable W = key := by
  refine Vector.ext fun i hi => ?_
  have hbyte : 4 * (i / 4) + i % 4 = i := by omega
  simp only [keyOfTable, Vector.getElem_ofFn, h (i / 4) (by omega), keyWord, Word.byte_ofFn, hbyte]

/-- The key of a table is read from its first four words alone. -/
theorem keyOfTable_congr {A B : Table} (h : ∀ (c : Nat) (_ : c < 4), A[c] = B[c]) : keyOfTable A = keyOfTable B := by
  refine Vector.ext fun i hi => ?_
  simp only [keyOfTable, Vector.getElem_ofFn, h (i / 4) (by omega)]

theorem keyOfTable_loadKeyWords (W : Table) (key : Block) : keyOfTable (loadKeyWords W key) = key :=
  keyOfTable_eq_of_keyWords fun c hc => by rw [loadKeyWords_getElem _ _ c (by omega), dif_pos hc]

/-- A word past the key is no part of it. -/
theorem keyOfTable_set {W : Table} {w : Word} {n : Nat} (h4 : 4 ≤ n) (h : n < 44) :
    keyOfTable (W.set n w) = keyOfTable W :=
  keyOfTable_congr fun c hc => Vector.getElem_set_ne _ _ (by omega)

end Sys2Proof

namespace Sys2Proof.Machine

theorem keyOfTable_expand (key : Block) : keyOfTable (expand key) = key :=
  keyOfTable_eq_of_keyWords fun _ hc => expand_getElem_of_lt key hc

/-- The key words and the recurrence fix every word of a table, one after the other (R121). -/
theorem eq_expand_of_recurrence {T : Table} {key : Block}
    (hkey : ∀ (c : Nat) (hc : c < 4), T[c] = keyWord key ⟨c, hc⟩)
    (hrec : ∀ (i : Nat) (h4 : 4 ≤ i) (h : i < 44), T[i] = scheduleWord T i h4 h) : T = expand key := by
  refine Vector.ext fun i hi => ?_
  induction i using Nat.strong_induction_on with
  | _ i ih =>
    by_cases h4 : 4 ≤ i
    · rw [hrec i h4 hi, expand_getElem_of_le key h4 hi]
      exact scheduleWord_congr h4 hi (ih (i - 1) (by omega) (by omega)) (ih (i - 4) (by omega) (by omega))
    · rw [hkey i (by omega), expand_getElem_of_lt key (by omega)]

/-- The loop of `Expand` overwrites whatever it finds past the key (R128). -/
theorem expandLoop_loadKeyWords (W : Table) (key : Block) :
    (List.range' 4 40).foldl expandStep (loadKeyWords W key) = expand key := by
  obtain ⟨hkey, hrec⟩ := expandLoop_spec (loadKeyWords W key) 40 le_rfl
  refine eq_expand_of_recurrence (fun c hc => ?_) (fun i h4 h => hrec i h4 h h)
  rw [hkey c (by omega) hc, loadKeyWords_getElem _ _ c (by omega), dif_pos hc]

/-- Settles O15: the loop leaves the key in words 0 to 3 and satisfies the recurrence, which has one solution. -/
theorem expandIgnoresTheOldTable : Obligations.ExpandIgnoresTheOldTable := by
  unfold Obligations.ExpandIgnoresTheOldTable
  exact expandLoop_loadKeyWords

/-- Settles O16: the first four words are the key's, so the key can be read back, and they are round key 0. -/
theorem expandKeepsTheKey : Obligations.ExpandKeepsTheKey := by
  unfold Obligations.ExpandKeepsTheKey
  refine ⟨keyOfTable_expand, fun k l h => ?_, fun key => StateMatrix.ext_get fun r c => ?_⟩
  · rw [← keyOfTable_expand k, h, keyOfTable_expand l]
  · have hword : (expand key)[4 * (0 : Fin 11).val + c.val] = keyWord key c := by
      simpa using expand_getElem_of_lt key c.isLt
    rw [roundKey_get, toMatrix_get, hword, keyWord, Word.byte_ofFn]
    simp only [Nat.add_comm]

/-! ## A table written up to some word -/

/-- A key load writes the first four words of the expansion of its key (R125). -/
theorem expandedTo_loadKeyWords (W : Table) (key : Block) : expandedTo (loadKeyWords W key) 4 := by
  intro i h hi
  rw [keyOfTable_loadKeyWords, loadKeyWords_getElem _ _ i h, dif_pos hi, expand_getElem_of_lt key hi]

/-- The schedule's word extends a table that is written up to it (R126). -/
theorem expandedTo_set_scheduleWord {W : Table} {n : Nat} (h4 : 4 ≤ n) (h : n < 44) (hW : expandedTo W n) :
    expandedTo (W.set n (scheduleWord W n h4 h)) (n + 1) := by
  intro i hi hin
  rw [keyOfTable_set h4 h]
  obtain rfl | hne := eq_or_ne i n
  · rw [Vector.getElem_set_self, expand_getElem_of_le _ h4 h]
    exact scheduleWord_congr h4 h (hW _ _ (by omega)) (hW _ _ (by omega))
  · rw [Vector.getElem_set_ne _ _ hne.symm]
    exact hW i hi (by omega)

end Sys2Proof.Machine
end

section
/-!
PROOFS. The invariant (10_state.md R39): what each action of the host and each transition of the engine does to it.
-/

namespace Sys2Proof.Machine

/-- Writing the operation that is in progress already changes nothing. -/
theorem State.setOp_eq_self {s : State} {o : Op} (h : s.op = o) : s.setOp o = s := by
  subst h; rfl

/-! ## The ports and the host's side -/

theorem Inv.setPlan {s : State} (h : Inv s) {plan : List HostAction} (hplan : ∀ a ∈ plan, a.offersMessage) :
    Inv (s.setPlan plan) :=
  { h with planOffersMessages := hplan }

/-- What is left of a plan offers whole messages if the plan does. -/
theorem Inv.setPlan_rest {s : State} (h : Inv s) {a : HostAction} {rest : List HostAction} (hplan : s.plan = a :: rest) :
    Inv (s.setPlan rest) :=
  h.setPlan fun b hb => h.planOffersMessages b (hplan ▸ List.mem_cons_of_mem a hb)

theorem Inv.setCmd {s : State} (h : Inv s) {c : Option (List Byte)} (hc : ∀ bytes, c = some bytes → isMessage bytes = true) :
    Inv (s.setCmd c) :=
  { h with heldIsMessage := hc }

theorem Inv.setCmd_none {s : State} (h : Inv s) : Inv (s.setCmd none) := h.setCmd nofun

theorem Inv.readStatus {s : State} (h : Inv s) : Inv s.readStatus := { h with }

theorem Inv.readResponse {s : State} (h : Inv s) (hunread : s.rspRead < s.rsp.length) : Inv s.readResponse :=
  { h with readEmitted := hunread }

theorem Inv.respond {s : State} (h : Inv s) {stat : Status} {data : List Byte} (hlegal : (Response.mk stat data).legal = true) :
    Inv (s.respond stat data) :=
  { h with
    responsesLegal := fun r hr => by
      rcases List.mem_append.1 hr with hr | hr
      · exact h.responsesLegal r hr
      · rw [List.mem_singleton.1 hr]; exact hlegal
    readEmitted := h.readEmitted.trans (by simp) }

theorem Inv.raiseError {s : State} (h : Inv s) (e : ErrorKind) : Inv (s.raiseError e) :=
  h.setCmd_none.respond rfl

/-! ## The engine -/

/-- An idle engine with a key flag that tells the truth about the table. -/
theorem Inv.idleWith {s : State} (h : Inv s) {v : Bool} (htable : v = true → expandedTo s.W 44) :
    Inv ((s.setKeyValid v).setOp .idle) :=
  { h with
    tableComplete := htable
    invalidWhileExpanding := nofun
    expanding := nofun
    encrypting := nofun
    decrypting := nofun }

theorem Inv.setOp_idle {s : State} (h : Inv s) : Inv (s.setOp .idle) := h.idleWith h.tableComplete

theorem Inv.resetEvent {s : State} (h : Inv s) : Inv s.resetEvent where
  tableComplete := by simp
  invalidWhileExpanding := by simp
  expanding := by simp
  encrypting := by simp
  decrypting := by simp
  heldIsMessage := by simp
  planOffersMessages := by simpa using h.planOffersMessages
  responsesLegal := by simpa using h.responsesLegal
  readEmitted := by simpa using h.readEmitted

/-- A key load starts an expansion whose first four words are written (R125). -/
theorem Inv.startExpansion {s : State} (h : Inv s) (key : Block) : Inv (startExpansion key s) :=
  { h.setCmd_none with
    tableComplete := nofun
    invalidWhileExpanding := fun _ => rfl
    expanding := fun _ => ⟨show 4 ≤ (4 : BitVec 6) by decide, show (4 : BitVec 6) ≤ 44 by decide, expandedTo_loadKeyWords s.W key⟩
    encrypting := nofun
    decrypting := nofun }

/-- An encryption may go on at any position of its walk, with any matrix. -/
theorem Inv.encryptingAt {s : State} (h : Inv s) (hkey : s.keyValid = true) {r u : BitVec 4} (hwalk : onEncryptWalk r u)
    (S : StateMatrix) : Inv (((s.setMatrix S).setOp .enc).setPosition r u) :=
  { h with
    invalidWhileExpanding := nofun
    expanding := nofun
    encrypting := fun _ => ⟨hkey, hwalk⟩
    decrypting := nofun }

/-- A decryption may go on at any position of its walk, with any matrix. -/
theorem Inv.decryptingAt {s : State} (h : Inv s) (hkey : s.keyValid = true) {r u : BitVec 4} (hwalk : onDecryptWalk r u)
    (S : StateMatrix) : Inv (((s.setMatrix S).setOp .dec).setPosition r u) :=
  { h with
    invalidWhileExpanding := nofun
    expanding := nofun
    encrypting := nofun
    decrypting := fun _ => ⟨hkey, hwalk⟩ }

/-- The end of a key expansion makes its table valid: (I1) from (I3). -/
theorem Inv.expansionDone {s : State} (h : Inv s) (hop : s.op = .keyExp) (hki : s.ki = 44) :
    Inv ((s.setKeyValid true).setOp .idle) :=
  h.idleWith fun _ => by
    obtain ⟨-, -, hW⟩ := h.expanding hop
    rwa [hki] at hW

/-- One turn of the key expansion keeps (I3). -/
theorem Inv.ksWord {s : State} (h : Inv s) (hop : s.op = .keyExp) (hlo : 4 ≤ s.ki.toNat) (hhi : s.ki.toNat < 44) :
    Inv ((s.setTable (s.W.set s.ki.toNat (scheduleWord s.W s.ki.toNat hlo hhi) hhi)).setKi (s.ki + 1)) := by
  have hinvalid : s.keyValid = false := h.invalidWhileExpanding hop
  obtain ⟨-, -, hW⟩ := h.expanding hop
  have hsucc : (s.ki + 1).toNat = s.ki.toNat + 1 := by bv_omega
  exact { h with
    tableComplete := fun hvalid => absurd (hinvalid.symm.trans hvalid) nofun
    expanding := fun _ => ⟨show 4 ≤ s.ki + 1 by bv_omega, show s.ki + 1 ≤ 44 by bv_omega, by
      rw [State.setKi_ki, hsucc]
      exact expandedTo_set_scheduleWord hlo hhi hW⟩ }

/-- One transition of the engine keeps the invariant. -/
theorem Inv.engineStep {s u : State} (h : Inv s) (hstep : engineStep s = .next u) : Inv u := by
  rcases engineStep_next hstep with ⟨-, -, rfl⟩ | ⟨-, -, e, rfl⟩ | ⟨-, key, -, rfl⟩ | ⟨-, hkey, b, -, rfl⟩ |
    ⟨-, hkey, b, -, rfl⟩ | ⟨hop, hlo, hhi, rfl⟩ | ⟨hop, hki, rfl⟩ | ⟨-, -, rfl⟩ |
    ⟨hop, -, S', r, k, -, hnext, rfl⟩ | ⟨hop, -, S', r, k, -, hnext, rfl⟩
  · exact h
  · exact h.raiseError e
  · exact h.startExpansion key
  · exact h.setCmd_none.encryptingAt hkey (r := 0) (.inl ⟨rfl, by decide⟩) (toMatrix b)
  · exact h.setCmd_none.decryptingAt hkey (r := 10) (.inl ⟨rfl, by decide⟩) (toMatrix b)
  · exact h.ksWord hop hlo hhi
  · exact (h.expansionDone hop hki).respond rfl
  · exact (h.respond (by simp [Response.legal])).setOp_idle
  · have hinv := h.encryptingAt (h.encrypting hop).1 (nextEncrypt_onWalk hnext) S'
    rwa [State.setOp_eq_self (by simpa using hop)] at hinv
  · have hinv := h.decryptingAt (h.decrypting hop).1 (nextDecrypt_onWalk hnext) S'
    rwa [State.setOp_eq_self (by simpa using hop)] at hinv

/-- The state an engine turn starts from meets the invariant. -/
theorem Inv.engineFrom {s u : State} (h : Inv s) (hfrom : EngineFrom s u) : Inv u := by
  obtain rfl | ⟨rest, hplan, rfl⟩ := hfrom
  · exact h
  · exact h.setPlan_rest hplan

/-- One step keeps the invariant. -/
theorem Inv.step {s t : State} (h : Inv s) (hstep : step s = .next t) : Inv t := by
  rcases step_next hstep with ⟨rest, hplan, rfl⟩ | ⟨rest, hplan, rfl⟩ | ⟨rest, hplan, hunread, rfl⟩ |
    ⟨bytes, rest, hplan, -, rfl⟩ | ⟨u, hfrom, -, hengine⟩
  · exact (h.setPlan_rest hplan).readStatus
  · exact (h.setPlan_rest hplan).resetEvent
  · exact (h.setPlan_rest hplan).readResponse hunread
  · have hmessage : isMessage bytes = true := h.planOffersMessages (.offer bytes) (by simp [hplan])
    exact (h.setPlan_rest hplan).setCmd (by rintro _ ⟨⟩; exact hmessage)
  · exact (h.engineFrom hfrom).engineStep hengine

/-- Settles O47: each action of the host and each transition of the engine keeps the invariant. -/
theorem stepKeepsInvariant : Obligations.StepKeepsInvariant := by
  unfold Obligations.StepKeepsInvariant
  exact fun s t hinv hstep => hinv.step hstep

/-- An idle engine with no valid key and empty ports meets the invariant, whatever whole messages are to come. -/
theorem inv_reset {plan : List HostAction} (hplan : ∀ a ∈ plan, a.offersMessage) : Inv { State.reset with plan := plan } where
  tableComplete := nofun
  invalidWhileExpanding := nofun
  expanding := nofun
  encrypting := nofun
  decrypting := nofun
  heldIsMessage := nofun
  planOffersMessages := hplan
  responsesLegal := nofun
  readEmitted := le_rfl

/-- Settles O46: the state after reset has an empty plan. -/
theorem invariantAtReset : Obligations.InvariantAtReset := by
  unfold Obligations.InvariantAtReset
  exact inv_reset (plan := []) nofun

end Sys2Proof.Machine
end

section
/-!
PROOFS. The engine's transition in a short form: what the accept of a message does depends on its bytes and the key flag
alone, and a busy engine has four transitions (42_cipher_datapath.md R178; 30_encoding.md R94).
-/

namespace Sys2Proof

/-- The whole messages are what payloads of up to 255 bytes are encoded as (R91). -/
theorem isMessage_iff {bytes : List Byte} :
    isMessage bytes = true ↔ ∃ opc data, data.length ≤ 255 ∧ bytes = encodeMessage opc data := by
  refine ⟨fun h => ?_, fun ⟨opc, data, hlen, hbytes⟩ => hbytes ▸ (Laws.EncodedForm.encodeMessage_form hlen).1⟩
  match bytes, h with
  | opc :: len :: data, h =>
    have hlen : data.length = len.toNat := of_decide_eq_true h
    exact ⟨opc, data, by omega, by simp [encodeMessage, hlen]⟩

/-- Bytes that are no whole message decode to no command (R94). -/
theorem decodeMessage_of_not_isMessage {bytes : List Byte} (h : isMessage bytes = false) :
    decodeMessage bytes = .error .notAMessage := by
  match bytes, h with
  | [], _ => rfl
  | [_], _ => rfl
  | opc :: len :: data, h => exact if_neg (of_decide_eq_false h)

end Sys2Proof

namespace Sys2Proof.Machine

/-! ## The idle engine -/

/-- An idle engine with no command held waits (R178). -/
theorem engineStep_of_cmd_none {s : State} (hop : s.op = .idle) (hcmd : s.cmd = none) : engineStep s = .next s := by
  simp only [engineStep, fetch, hop, hcmd]

/-- An idle engine refuses bytes that are no whole message. -/
theorem engineStep_of_not_isMessage {s : State} {bytes : List Byte} (hop : s.op = .idle) (hcmd : s.cmd = some bytes)
    (h : isMessage bytes = false) : engineStep s = .refused .notACommandMessage := by
  have hfetch : fetch s = .notAMessage := by
    rw [fetch_of_held hop hcmd, decode, decodeMessage_of_not_isMessage h, fetched]
  simp only [engineStep, hfetch]

/-- What the accept of a message can do to the state: answer an error, start an expansion of the key it carries, or, with a
valid key, start a block operation (R97, R125, R174). -/
def AcceptEffect (bytes : List Byte) (keyValid : Bool) (f : State → State) : Prop :=
  (∃ e, f = fun s => s.raiseError e) ∨
  (∃ key : Block, bytes = encodeMessage 0x01 key.toList ∧ f = startExpansion key) ∨
  (keyValid = true ∧ ∃ block, f = startEncrypt block ∨ f = startDecrypt block)

/-- An idle engine answers every whole message, and what it does depends on the message and the key flag alone (R94, R97,
R205). -/
theorem engineStep_of_isMessage {bytes : List Byte} (h : isMessage bytes = true) (keyValid : Bool) :
    ∃ f, AcceptEffect bytes keyValid f ∧
      ∀ s : State, s.op = .idle → s.cmd = some bytes → s.keyValid = keyValid → engineStep s = .next (f s) := by
  obtain ⟨opc, data, hlen, rfl⟩ := isMessage_iff.1 h
  have hexec {s : State} {i : Instr} (hop : s.op = .idle) (hcmd : s.cmd = some (encodeMessage opc data))
      (hi : decodeOpcode opc data = .ok i) : engineStep s = exec i s := engineStep_of_command hop hcmd hlen hi
  by_cases hreserved : opc ≠ 0x01 ∧ opc ≠ 0x02 ∧ opc ≠ 0x03
  · obtain ⟨h1, h2, h3⟩ := hreserved
    have hdecode := (decode_encodeMessage opc hlen).trans (decodeOpcode_reserved data h1 h2 h3)
    exact ⟨_, .inl ⟨.illegalCommand, rfl⟩, fun s hop hcmd _ => engineStep_of_reservedOpcode hop hcmd hdecode⟩
  obtain rfl | hblock : opc = 0x01 ∨ opc = 0x02 ∨ opc = 0x03 := by tauto
  · by_cases hsize : data.length = 16
    · obtain ⟨key, rfl⟩ := exists_block_of_length_eq hsize
      exact ⟨_, .inr (.inl ⟨key, rfl, rfl⟩), fun s hop hcmd _ => (hexec hop hcmd rfl).trans (execLoadKey_of_key hop key)⟩
    · exact ⟨_, .inl ⟨.invalidKeyLength, rfl⟩, fun s hop hcmd _ =>
        (hexec hop hcmd rfl).trans (execLoadKey_of_length_ne hop hsize)⟩
  obtain ⟨start, hstart, haccept⟩ : ∃ start, (start = startEncrypt ∨ start = startDecrypt) ∧
      ∀ s : State, s.op = .idle → s.cmd = some (encodeMessage opc data) → engineStep s = acceptBlock start data s := by
    obtain rfl | rfl := hblock
    · exact ⟨startEncrypt, .inl rfl, fun s hop hcmd => hexec hop hcmd rfl⟩
    · exact ⟨startDecrypt, .inr rfl, fun s hop hcmd => hexec hop hcmd rfl⟩
  by_cases hsize : data.length = 16
  · obtain ⟨b, rfl⟩ := exists_block_of_length_eq hsize
    cases keyValid with
    | false => exact ⟨_, .inl ⟨.uninitializedKey, rfl⟩, fun s hop hcmd hkey =>
        (haccept s hop hcmd).trans (acceptBlock_of_keyInvalid hop hkey b)⟩
    | true => exact ⟨start b, .inr (.inr ⟨rfl, b, by obtain rfl | rfl := hstart <;> simp⟩), fun s hop hcmd hkey =>
        (haccept s hop hcmd).trans (acceptBlock_of_keyValid hop hkey b)⟩
  · exact ⟨_, .inl ⟨.invalidBlockLength, rfl⟩, fun s hop hcmd _ =>
      (haccept s hop hcmd).trans (acceptBlock_of_length_ne hop hsize)⟩

/-- Every accept takes the command off the port. -/
theorem AcceptEffect.cmd_eq_none {bytes : List Byte} {keyValid : Bool} {f : State → State}
    (h : AcceptEffect bytes keyValid f) (s : State) : (f s).cmd = none := by
  obtain ⟨e, rfl⟩ | ⟨key, -, rfl⟩ | ⟨-, b, rfl | rfl⟩ := h <;> rfl

/-- An idle engine that goes on waits with no command held, or accepts the message it holds, as every idle engine with this
message and this key flag does. -/
theorem engineStep_next_of_idle {s u : State} (hop : s.op = .idle) (h : engineStep s = .next u) :
    (s.cmd = none ∧ u = s) ∨
    ∃ bytes f, s.cmd = some bytes ∧ AcceptEffect bytes s.keyValid f ∧ u = f s ∧
      ∀ t : State, t.op = .idle → t.cmd = some bytes → t.keyValid = s.keyValid → engineStep t = .next (f t) := by
  rcases hcmd : s.cmd with _ | bytes
  · rw [engineStep_of_cmd_none hop hcmd] at h
    exact .inl ⟨rfl, (Host.Outcome.next.inj h).symm⟩
  · cases hmessage : isMessage bytes with
    | false => rw [engineStep_of_not_isMessage hop hcmd hmessage] at h; cases h
    | true =>
      obtain ⟨f, hf, hstep⟩ := engineStep_of_isMessage hmessage s.keyValid
      rw [hstep s hop hcmd rfl] at h
      exact .inr ⟨bytes, f, rfl, hf, (Host.Outcome.next.inj h).symm, hstep⟩

/-! ## The busy engine -/

/-- A busy engine that goes on computes a word, ends the expansion, stores the result, or performs a transform and moves to
the next position (R178). -/
theorem engineStep_next_of_busy {s u : State} (hbusy : s.op ≠ .idle) (h : engineStep s = .next u) :
    (s.op = .keyExp ∧ ∃ i, 4 ≤ i ∧ i < 44 ∧ s.ki = BitVec.ofNat 6 i ∧
      u = (s.setTable (expandStep s.W i)).setKi (BitVec.ofNat 6 (i + 1))) ∨
    (s.op = .keyExp ∧ s.ki = 44 ∧ u = ((s.setKeyValid true).setOp .idle).respond .ok []) ∨
    ((s.op = .enc ∨ s.op = .dec) ∧ s.uop = codeStoreState ∧
      u = (s.respond .ok (fromMatrix s.S).toList).setOp .idle) ∨
    ∃ S' r k, nextPosition s.op (s.rnd, s.uop) = some (r, k) ∧ transformAt s.W s.rnd s.uop s.S = some S' ∧
      u = (s.setMatrix S').setPosition r k := by
  rcases engineStep_next h with ⟨hop, -⟩ | ⟨hop, -⟩ | ⟨hop, -⟩ | ⟨hop, -⟩ | ⟨hop, -⟩ | ⟨hop, hlo, hhi, rfl⟩ | hdone |
    hstore | ⟨hop, -, S', r, k, hS, hnext, rfl⟩ | ⟨hop, -, S', r, k, hS, hnext, rfl⟩
  iterate 5 exact absurd hop hbusy
  · refine .inl ⟨hop, s.ki.toNat, hlo, hhi, by simp, ?_⟩
    rw [expandStep_eq_set _ hlo hhi, BitVec.ofNat_add, BitVec.ofNat_toNat, BitVec.setWidth_eq]
    rfl
  · exact .inr (.inl hdone)
  · exact .inr (.inr (.inl hstore))
  · exact .inr (.inr (.inr ⟨S', r, k, by rw [hop]; exact hnext, hS, rfl⟩))
  · exact .inr (.inr (.inr ⟨S', r, k, by rw [hop]; exact hnext, hS, rfl⟩))

/-- A position with a next one belongs to a block operation. -/
theorem op_of_nextPosition {o : Op} {p q : BitVec 4 × BitVec 4} (h : nextPosition o p = some q) : o = .enc ∨ o = .dec := by
  cases o with
  | idle => cases h
  | keyExp => cases h
  | enc => exact .inl rfl
  | dec => exact .inr rfl

/-- STORE_STATE is the last position. -/
theorem nextPosition_storeState (o : Op) (r : BitVec 4) : nextPosition o (r, codeStoreState) = none := by
  cases o <;> rfl

/-! ## The position after a transition -/

/-- Where a busy engine is after its transition, read from where it is before: `OP`, `RND`, `UOP` and `KI` (R182). -/
def positionAfter (o : Op) (r u : BitVec 4) (k : BitVec 6) : Op × BitVec 4 × BitVec 4 × BitVec 6 :=
  if o = .keyExp ∧ k ≠ 44 then (o, r, u, k + 1)
  else
    match nextPosition o (r, u) with
    | some (r', u') => (o, r', u', k)
    | none => (.idle, r, u, k)

theorem engineStep_position {s u : State} (hbusy : s.op ≠ .idle) (h : engineStep s = .next u) :
    (u.op, u.rnd, u.uop, u.ki) = positionAfter s.op s.rnd s.uop s.ki := by
  rcases engineStep_next_of_busy hbusy h with ⟨hop, i, h4, hi, hki, rfl⟩ | ⟨hop, hki, rfl⟩ | ⟨hop, hu, rfl⟩ |
    ⟨S', r, k, hnext, -, rfl⟩
  · have hne : BitVec.ofNat 6 i ≠ 44#6 := by bv_omega
    simp [positionAfter, hop, hki, hne, BitVec.ofNat_add]
  · simp [positionAfter, hop, hki, nextPosition]
  · have hne : s.op ≠ .keyExp := by obtain hop | hop := hop <;> simp [hop]
    simp [positionAfter, hne, hu, nextPosition_storeState]
  · have hne : s.op ≠ .keyExp := by obtain hop | hop := op_of_nextPosition hnext <;> simp [hop]
    simp [positionAfter, hne, hnext]

/-- Settles O54: the position after the step is a function of the position before. -/
theorem walkIsDataIndependent : Obligations.WalkIsDataIndependent := by
  unfold Obligations.WalkIsDataIndependent
  intro s t s' t' hplan hplan' hbusy hop hrnd huop hki hs ht
  rw [step_of_plan_nil hplan] at hs
  rw [step_of_plan_nil hplan'] at ht
  have hsame : (s'.op, s'.rnd, s'.uop, s'.ki) = (t'.op, t'.rnd, t'.uop, t'.ki) := by
    rw [engineStep_position hbusy hs, engineStep_position (hop ▸ hbusy) ht, hop, hrnd, huop, hki]
  simpa only [Prod.mk.injEq] using hsame

end Sys2Proof.Machine
end

section
/-!
PROOFS. What the host cannot see (10_state.md R35, R39; 70_reset_and_hazards.md R230): two states that differ only in what no
rule reads before it is written step alike.
-/

namespace Sys2Proof.Machine

/-! ## The host's turn -/

theorem SameToHost.setPlan {s t : State} (h : SameToHost s t) (plan : List HostAction) :
    SameToHost (s.setPlan plan) (t.setPlan plan) :=
  { h with plan := rfl }

theorem SameToHost.setCmd {s t : State} (h : SameToHost s t) (c : Option (List Byte)) :
    SameToHost (s.setCmd c) (t.setCmd c) :=
  { h with cmd := rfl }

theorem SameToHost.respond {s t : State} (h : SameToHost s t) (stat : Status) (data : List Byte) :
    SameToHost (s.respond stat data) (t.respond stat data) :=
  { h with rsp := congrArg (· ++ [_]) h.rsp }

theorem SameToHost.raiseError {s t : State} (h : SameToHost s t) (e : ErrorKind) :
    SameToHost (s.raiseError e) (t.raiseError e) :=
  (h.setCmd none).respond (.error e) []

theorem SameToHost.readResponse {s t : State} (h : SameToHost s t) : SameToHost s.readResponse t.readResponse :=
  { h with rspRead := congrArg (· + 1) h.rspRead }

/-- `STATUS` is read from the operation and the key flag. -/
theorem SameToHost.status {s t : State} (h : SameToHost s t) : s.status = t.status := by
  simp only [State.status, State.busy, h.op, h.keyValid]

theorem SameToHost.readStatus {s t : State} (h : SameToHost s t) : SameToHost s.readStatus t.readStatus :=
  { h with statusReads := by rw [State.readStatus_statusReads, State.readStatus_statusReads, h.statusReads, h.status] }

/-- A reset leaves nothing that can be read of the table, the matrix and the position. -/
theorem SameToHost.resetEvent {s t : State} (h : SameToHost s t) : SameToHost s.resetEvent t.resetEvent where
  op := by simp
  keyValid := by simp
  cmd := by simp
  rsp := by simpa using h.rsp
  rspRead := by simpa using h.rspRead
  statusReads := by simpa using h.statusReads
  plan := by simpa using h.plan
  draws := by simpa using h.draws
  table := by simp
  expansion := by simp
  block := by simp

/-- In both states it is the same side's turn, and the states after the host's action, or at the start of the engine's
transition, are the same to the host. -/
theorem SameToHost.hostTurn {s t : State} (h : SameToHost s t) :
    (∃ s' t', hostTurn s = .host s' ∧ hostTurn t = .host t' ∧ SameToHost s' t') ∨
    (∃ u v, hostTurn s = .engine u ∧ hostTurn t = .engine v ∧ SameToHost u v) := by
  have ht (rest : List HostAction) := h.setPlan rest
  simp only [Machine.hostTurn, ← h.plan, ← h.rspRead, ← h.rsp, ← h.cmd]
  rcases s.plan with _ | ⟨a, rest⟩
  · exact .inr ⟨_, _, rfl, rfl, h⟩
  · cases a with
    | engineTurn => exact .inr ⟨_, _, rfl, rfl, ht rest⟩
    | readStatus => exact .inl ⟨_, _, rfl, rfl, (ht rest).readStatus⟩
    | assertReset => exact .inl ⟨_, _, rfl, rfl, (ht rest).resetEvent⟩
    | readResponse =>
      by_cases hunread : s.rspRead < s.rsp.length
      · simp only [hunread, if_true]
        exact .inl ⟨_, _, rfl, rfl, (ht rest).readResponse⟩
      · simp only [hunread, if_false]
        exact .inr ⟨_, _, rfl, rfl, h⟩
    | offer bytes =>
      rcases s.cmd with _ | held
      · exact .inl ⟨_, _, rfl, rfl, (ht rest).setCmd (some bytes)⟩
      · exact .inr ⟨_, _, rfl, rfl, h⟩

/-! ## The accept -/

/-- Two tables with the same key words written are the same in these words. -/
theorem SameToHost.startExpansion {s t : State} (h : SameToHost s t) (key : Block) :
    SameToHost (startExpansion key s) (startExpansion key t) :=
  { h with
    op := rfl
    keyValid := rfl
    cmd := rfl
    table := by rintro (hvalid | hop | hop) <;> cases ‹_›
    expansion := fun _ => ⟨rfl, fun i hi hlt => by
      have h4 : i < 4 := hlt
      change (loadKeyWords s.W key)[i] = (loadKeyWords t.W key)[i]
      rw [loadKeyWords_getElem _ _ i hi, loadKeyWords_getElem _ _ i hi, dif_pos h4, dif_pos h4]⟩
    block := by rintro (hop | hop) <;> cases hop }

/-- A started block operation has the valid table that both states have, and its own matrix and position. -/
theorem SameToHost.blockAt {s t : State} (h : SameToHost s t) (hkey : s.keyValid = true) {o : Op}
    (ho : o ≠ .keyExp) (S : StateMatrix) (r u : BitVec 4) :
    SameToHost (((s.setMatrix S).setOp o).setPosition r u) (((t.setMatrix S).setOp o).setPosition r u) :=
  { h with
    op := rfl
    table := fun _ => h.table (.inl hkey)
    expansion := fun hop => absurd hop ho
    block := fun _ => ⟨rfl, rfl, rfl⟩ }

theorem SameToHost.acceptEffect {s t : State} (h : SameToHost s t) {bytes : List Byte} {f : State → State}
    (hf : AcceptEffect bytes s.keyValid f) : SameToHost (f s) (f t) := by
  obtain ⟨e, rfl⟩ | ⟨key, -, rfl⟩ | ⟨hkey, b, rfl | rfl⟩ := hf
  · exact h.raiseError e
  · exact h.startExpansion key
  · exact (h.setCmd none).blockAt hkey (o := .enc) nofun (toMatrix b) 0 codeAddRoundKey
  · exact (h.setCmd none).blockAt hkey (o := .dec) nofun (toMatrix b) 10 codeAddRoundKey

/-! ## The busy engine -/

/-- A turn of the expansion's loop reads two words below its index, so it keeps the words below the next index the same. -/
theorem expandStep_getElem_congr {A B : Table} {i : Nat} (h4 : 4 ≤ i) (hi : i < 44)
    (h : ∀ j (_ : j < 44), j < i → A[j] = B[j]) :
    ∀ j (_ : j < 44), j < i + 1 → (expandStep A i)[j] = (expandStep B i)[j] := by
  intro j hj hlt
  obtain rfl | hne := eq_or_ne j i
  · simp only [expandStep_eq_set _ h4 hi, Vector.getElem_set_self]
    exact scheduleWord_congr h4 hi (h _ _ (by omega)) (h _ _ (by omega))
  · rw [expandStep_getElem_ne A hj hne, expandStep_getElem_ne B hj hne]
    exact h j hj (by omega)

theorem SameToHost.ksWord {s t : State} (h : SameToHost s t) {i : Nat} (hop : s.op = .keyExp) (h4 : 4 ≤ i) (hi : i < 44)
    (hki : s.ki = BitVec.ofNat 6 i) :
    SameToHost ((s.setTable (expandStep s.W i)).setKi (BitVec.ofNat 6 (i + 1)))
      ((t.setTable (expandStep t.W i)).setKi (BitVec.ofNat 6 (i + 1))) := by
  have hbelow : ∀ j (_ : j < 44), j < i → s.W[j] = t.W[j] := fun j hj hlt =>
    (h.expansion hop).2 j hj (by rw [hki, BitVec.toNat_ofNat]; omega)
  have hsucc : (BitVec.ofNat 6 (i + 1)).toNat = i + 1 := by rw [BitVec.toNat_ofNat]; omega
  exact { h with
    table := fun hread => congrArg (expandStep · i) (h.table hread)
    expansion := fun _ => ⟨rfl, fun j hj hlt => expandStep_getElem_congr h4 hi hbelow j hj (hsucc ▸ hlt)⟩ }

/-- At the end of an expansion every word has been written, so the tables are equal. -/
theorem SameToHost.ksDone {s t : State} (h : SameToHost s t) (hop : s.op = .keyExp) (hki : s.ki = 44) :
    SameToHost (((s.setKeyValid true).setOp .idle).respond .ok []) (((t.setKeyValid true).setOp .idle).respond .ok []) := by
  have htable : s.W = t.W := Vector.ext fun i hi => (h.expansion hop).2 i hi (by rw [hki]; exact hi)
  have hidle : SameToHost ((s.setKeyValid true).setOp .idle) ((t.setKeyValid true).setOp .idle) :=
    { h with
      op := rfl
      keyValid := rfl
      table := fun _ => htable
      expansion := nofun
      block := by rintro (hop | hop) <;> cases hop }
  exact hidle.respond .ok []

theorem SameToHost.setOp_idle {s t : State} (h : SameToHost s t) : SameToHost (s.setOp .idle) (t.setOp .idle) :=
  { h with
    op := rfl
    table := by
      rintro (hvalid | hop | hop)
      · exact h.table (.inl hvalid)
      · cases hop
      · cases hop
    expansion := nofun
    block := by rintro (hop | hop) <;> cases hop }

/-- A transition of the engine is the same in both states: what it reads has been written. -/
theorem SameToHost.engineStep {s t s' : State} (h : SameToHost s t) (hstep : engineStep s = .next s') :
    ∃ t', engineStep t = .next t' ∧ SameToHost s' t' := by
  by_cases hidle : s.op = .idle
  · have hidle' : t.op = .idle := h.op ▸ hidle
    rcases engineStep_next_of_idle hidle hstep with ⟨hcmd, rfl⟩ | ⟨bytes, f, hcmd, hf, rfl, haccept⟩
    · exact ⟨t, engineStep_of_cmd_none hidle' (h.cmd ▸ hcmd), h⟩
    · exact ⟨f t, haccept t hidle' (h.cmd ▸ hcmd) h.keyValid.symm, h.acceptEffect hf⟩
  rcases engineStep_next_of_busy hidle hstep with ⟨hop, i, h4, hi, hki, rfl⟩ | ⟨hop, hki, rfl⟩ | ⟨hop, hu, rfl⟩ |
    ⟨S', r, k, hnext, hS, rfl⟩
  · have hki' : t.ki = BitVec.ofNat 6 i := (h.expansion hop).1 ▸ hki
    exact ⟨_, engineStep_of_ksWord h4 hi (h.op ▸ hop) hki', h.ksWord hop h4 hi hki⟩
  · have hki' : t.ki = 44 := (h.expansion hop).1 ▸ hki
    exact ⟨_, engineStep_of_ksDone (h.op ▸ hop) hki', h.ksDone hop hki⟩
  · obtain ⟨hmatrix, -, huop⟩ := h.block hop
    refine ⟨_, engineStep_of_storeState (h.op ▸ hop) (huop ▸ hu), ?_⟩
    rw [hmatrix]
    exact (h.respond .ok _).setOp_idle
  · have hop := op_of_nextPosition hnext
    obtain ⟨hmatrix, hrnd, huop⟩ := h.block hop
    rw [h.op, hrnd, huop] at hnext
    rw [h.table (.inr hop), hmatrix, hrnd, huop] at hS
    obtain ⟨T', hT, hstep'⟩ := engineStep_of_nextPosition hnext
    obtain rfl : S' = T' := Option.some.inj (hS.symm.trans hT)
    exact ⟨_, hstep', { h with block := fun _ => ⟨rfl, rfl, rfl⟩ }⟩

/-- Settles O53: the same side moves, by the same action of the host or the same transition of the engine. -/
theorem unwrittenStateIsUnobservable : Obligations.UnwrittenStateIsUnobservable := by
  unfold Obligations.UnwrittenStateIsUnobservable
  intro s t s' h hstep
  obtain ⟨u, v, hu, hv, huv⟩ | ⟨u, v, hu, hv, huv⟩ := h.hostTurn
  · simp only [step, hu, hv, Host.Outcome.next.injEq] at hstep ⊢
    exact ⟨v, rfl, hstep ▸ huv⟩
  · rw [step_of_engineTurn hu] at hstep
    rw [step_of_engineTurn hv]
    exact huv.engineStep hstep

end Sys2Proof.Machine
end

section
/-!
PROOFS. No state that meets the invariant stops (42_cipher_datapath.md R178, 60_exceptions.md R208), and no run does.
-/

namespace Sys2Proof.Machine

/-- When it is the host's turn, the step is its action. -/
theorem step_of_hostTurn {s t : State} (h : hostTurn s = .host t) : step s = .next t := by
  simp only [step, h]

/-- When it is the engine's turn, its transition starts from the state, or from the state with the turn taken off the plan. -/
theorem engineFrom_of_hostTurn {s u : State} (h : hostTurn s = .engine u) : EngineFrom s u := by
  rcases hostTurn_cases s with ⟨-, ht⟩ | ⟨rest, hplan, ht⟩ | ⟨rest, -, ht⟩ | ⟨rest, -, ht⟩ | ⟨rest, -, -, ht⟩ |
    ⟨rest, -, -, ht⟩ | ⟨bytes, rest, -, -, ht⟩ | ⟨bytes, rest, m, -, -, ht⟩ <;> rw [ht] at h <;> cases h
  · exact .inl rfl
  · exact .inr ⟨rest, hplan, rfl⟩
  · exact .inl rfl
  · exact .inl rfl

/-- Every position of a walk but STORE_STATE has a next one. -/
theorem nextPosition_of_inv {s : State} (h : Inv s) (hop : s.op = .enc ∨ s.op = .dec) (hu : s.uop ≠ codeStoreState) :
    ∃ r k, nextPosition s.op (s.rnd, s.uop) = some (r, k) := by
  have hsome : (nextPosition s.op (s.rnd, s.uop)).isSome := by
    obtain hop | hop := hop
    · rw [hop]; exact (onEncryptWalk_goes (h.encrypting hop).2 hu s.W s.S).1
    · rw [hop]; exact (onDecryptWalk_goes (h.decrypting hop).2 hu s.W s.S).1
  obtain ⟨⟨r, k⟩, hp⟩ := Option.isSome_iff_exists.1 hsome
  exact ⟨r, k, hp⟩

/-- In a state that meets the invariant the engine's transition goes on. -/
theorem Inv.engineStep_goes {s : State} (h : Inv s) : ∃ u, Machine.engineStep s = .next u := by
  have hblock (hop : s.op = .enc ∨ s.op = .dec) : ∃ u, Machine.engineStep s = .next u := by
    by_cases hu : s.uop = codeStoreState
    · exact ⟨_, engineStep_of_storeState hop hu⟩
    · obtain ⟨r, k, hnext⟩ := nextPosition_of_inv h hop hu
      obtain ⟨S', -, hstep⟩ := engineStep_of_nextPosition hnext
      exact ⟨_, hstep⟩
  rcases hop : s.op with _ | _ | _ | _
  case idle =>
    rcases hcmd : s.cmd with _ | bytes
    · exact ⟨s, engineStep_of_cmd_none hop hcmd⟩
    · obtain ⟨f, -, hstep⟩ := engineStep_of_isMessage (h.heldIsMessage bytes hcmd) s.keyValid
      exact ⟨f s, hstep s hop hcmd rfl⟩
  case keyExp =>
    obtain ⟨hlo, hhi, -⟩ := h.expanding hop
    by_cases hki : s.ki = 44
    · exact ⟨_, engineStep_of_ksDone hop hki⟩
    · exact ⟨_, engineStep_of_ksWord (i := s.ki.toNat) (by bv_omega) (by bv_omega) hop (by simp)⟩
  case enc => exact hblock (.inl hop)
  case dec => exact hblock (.inr hop)

theorem Inv.runs {s : State} (h : Inv s) : Runs s := by
  rcases hturn : hostTurn s with t | u
  · exact ⟨t, step_of_hostTurn hturn⟩
  · obtain ⟨t, hstep⟩ := (h.engineFrom (engineFrom_of_hostTurn hturn)).engineStep_goes
    exact ⟨t, (step_of_engineTurn hturn).trans hstep⟩

/-- Settles O48: an action of the host always goes on, and (I3), (I4) and whole messages let the engine go on. -/
theorem invariantStatesNeverStop : Obligations.InvariantStatesNeverStop := by
  unfold Obligations.InvariantStatesNeverStop
  exact fun s hinv => hinv.runs

/-- A run of any length goes on, since each of its states meets the invariant. -/
theorem Inv.run {s : State} (h : Inv s) (n : ℕ) : ∃ t, Host.Core.run Sys2Proof.core n s = .next t := by
  induction n generalizing s with
  | zero => exact ⟨s, rfl⟩
  | succ n ih =>
    obtain ⟨u, hstep⟩ := h.runs
    obtain ⟨t, hrun⟩ := ih (h.step hstep)
    exact ⟨t, (run_succ_of_step (M := Sys2Proof.core) hstep n).trans hrun⟩

/-- Settles O56: the state after reset meets the invariant under every such plan. -/
theorem runsNeverStop : Obligations.RunsNeverStop := by
  unfold Obligations.RunsNeverStop
  exact ⟨fun s n hinv => hinv.run n, fun plan n hplan => (inv_reset hplan).run n⟩

end Sys2Proof.Machine
end

section
/-!
PROOFS. Which transitions write the key flag, the table, the responses and the CMD port (10_state.md R21, R23, R36;
20_memory.md R77).
-/

namespace Sys2Proof.Machine

/-! ## One transition of the engine -/

/-- The engine writes `KEY_VALID` only in the accept of a key and at the end of its expansion (R23). -/
theorem engineStep_keyValid_ne {s u : State} (h : engineStep s = .next u) (hne : u.keyValid ≠ s.keyValid) :
    (u.keyValid = false ∧ s.op = .idle ∧ ∃ key : Block, s.cmd = some (encodeMessage 0x01 key.toList)) ∨
    (u.keyValid = true ∧ s.op = .keyExp ∧ s.ki = 44 ∧ u.op = .idle ∧ u.rsp = s.rsp ++ [⟨.ok, []⟩]) := by
  by_cases hop : s.op = .idle
  · rcases engineStep_next_of_idle hop h with ⟨-, rfl⟩ | ⟨bytes, f, hcmd, hf, rfl, -⟩
    · exact absurd rfl hne
    · obtain ⟨e, rfl⟩ | ⟨key, rfl, rfl⟩ | ⟨-, b, rfl | rfl⟩ := hf
      · exact absurd rfl hne
      · exact .inl ⟨rfl, hop, key, hcmd⟩
      · exact absurd rfl hne
      · exact absurd rfl hne
  · rcases engineStep_next_of_busy hop h with ⟨-, i, -, -, -, rfl⟩ | ⟨hkeyExp, hki, rfl⟩ | ⟨-, -, rfl⟩ |
      ⟨S', r, k, -, -, rfl⟩
    · exact absurd rfl hne
    · exact .inr ⟨rfl, hkeyExp, hki, rfl, rfl⟩
    · exact absurd rfl hne
    · exact absurd rfl hne

/-- The engine writes the table only in the accept of a key and in a turn of its expansion (R21). -/
theorem engineStep_table_ne {s u : State} (h : engineStep s = .next u) (hne : u.W ≠ s.W) :
    (s.op = .idle ∧ ∃ key : Block, s.cmd = some (encodeMessage 0x01 key.toList)) ∨
    (s.op = .keyExp ∧ 4 ≤ s.ki ∧ s.ki ≤ 43) := by
  by_cases hop : s.op = .idle
  · rcases engineStep_next_of_idle hop h with ⟨-, rfl⟩ | ⟨bytes, f, hcmd, hf, rfl, -⟩
    · exact absurd rfl hne
    · obtain ⟨e, rfl⟩ | ⟨key, rfl, rfl⟩ | ⟨-, b, rfl | rfl⟩ := hf
      · exact absurd rfl hne
      · exact .inl ⟨hop, key, hcmd⟩
      · exact absurd rfl hne
      · exact absurd rfl hne
  · rcases engineStep_next_of_busy hop h with ⟨hkeyExp, i, h4, hi, hki, rfl⟩ | ⟨-, -, rfl⟩ | ⟨-, -, rfl⟩ |
      ⟨S', r, k, -, -, rfl⟩
    · exact .inr ⟨hkeyExp, by bv_omega, by bv_omega⟩
    · exact absurd rfl hne
    · exact absurd rfl hne
    · exact absurd rfl hne

/-- A busy engine leaves the CMD port alone (R77). -/
theorem engineStep_cmd_of_busy {s u : State} (hbusy : s.op ≠ .idle) (h : engineStep s = .next u) : u.cmd = s.cmd := by
  rcases engineStep_next_of_busy hbusy h with ⟨-, i, -, -, -, rfl⟩ | ⟨-, -, rfl⟩ | ⟨-, -, rfl⟩ | ⟨S', r, k, -, -, rfl⟩ <;>
    rfl

/-- The engine emits at most one response, and is then idle, having taken a command from the port or ended the one in
progress (R36, R75). -/
theorem engineStep_rsp {s u : State} (h : engineStep s = .next u) :
    u.rsp = s.rsp ∨ ∃ r, u.rsp = s.rsp ++ [r] ∧ u.op = .idle ∧
      ((s.op = .idle ∧ s.cmd ≠ none ∧ u.cmd = none) ∨ (s.op ≠ .idle ∧ u.cmd = s.cmd)) := by
  by_cases hop : s.op = .idle
  · rcases engineStep_next_of_idle hop h with ⟨-, rfl⟩ | ⟨bytes, f, hcmd, hf, rfl, -⟩
    · exact .inl rfl
    · obtain ⟨e, rfl⟩ | ⟨key, -, rfl⟩ | ⟨-, b, rfl | rfl⟩ := hf
      · exact .inr ⟨_, rfl, hop, .inl ⟨hop, by simp [hcmd], rfl⟩⟩
      · exact .inl rfl
      · exact .inl rfl
      · exact .inl rfl
  · have hcmd := engineStep_cmd_of_busy hop h
    rcases engineStep_next_of_busy hop h with ⟨-, i, -, -, -, rfl⟩ | ⟨-, -, rfl⟩ | ⟨-, -, rfl⟩ | ⟨S', r, k, -, -, rfl⟩
    · exact .inl rfl
    · exact .inr ⟨_, rfl, rfl, .inr ⟨hop, hcmd⟩⟩
    · exact .inr ⟨_, rfl, rfl, .inr ⟨hop, hcmd⟩⟩
    · exact .inl rfl

/-! ## One step -/

/-- Settles O50: of the host's actions only a reset writes `KEY_VALID`. -/
theorem keyValidIsWrittenOnlySo : Obligations.KeyValidIsWrittenOnlySo := by
  unfold Obligations.KeyValidIsWrittenOnlySo
  intro s t hstep hne
  rcases step_next hstep with ⟨rest, -, rfl⟩ | ⟨rest, hplan, rfl⟩ | ⟨rest, -, -, rfl⟩ | ⟨bytes, rest, -, -, rfl⟩ |
    ⟨u, hfrom, -, hengine⟩
  · exact absurd rfl hne
  · exact .inl ⟨by simp, .inl ⟨rest, hplan⟩⟩
  · exact absurd rfl hne
  · exact absurd rfl hne
  · obtain ⟨-, -, hkey, hop, -, -, hki, hcmd, hrsp, -, -, -⟩ := hfrom.fields
    rw [← hkey] at hne
    rw [← hop, ← hki, ← hcmd, ← hrsp]
    obtain ⟨hfalse, hidle, key, hheld⟩ | hdone := engineStep_keyValid_ne hengine hne
    · exact .inl ⟨hfalse, .inr ⟨hidle, key.toList, by simp, hheld⟩⟩
    · exact .inr hdone

/-- Settles O51: of the host's actions only a reset writes the table. -/
theorem tableIsWrittenOnlyByLoadKey : Obligations.TableIsWrittenOnlyByLoadKey := by
  unfold Obligations.TableIsWrittenOnlyByLoadKey
  intro s t hstep hne
  rcases step_next hstep with ⟨rest, -, rfl⟩ | ⟨rest, hplan, rfl⟩ | ⟨rest, -, -, rfl⟩ | ⟨bytes, rest, -, -, rfl⟩ |
    ⟨u, hfrom, -, hengine⟩
  · exact absurd rfl hne
  · exact .inl ⟨rest, hplan⟩
  · exact absurd rfl hne
  · exact absurd rfl hne
  · obtain ⟨hW, -, -, hop, -, -, hki, hcmd, -, -, -, -⟩ := hfrom.fields
    rw [← hW] at hne
    rw [← hop, ← hki, ← hcmd]
    obtain ⟨hidle, key, hheld⟩ | hword := engineStep_table_ne hengine hne
    · exact .inr (.inl ⟨hidle, key.toList, by simp, hheld⟩)
    · exact .inr (.inr hword)

/-- Settles O52: no action of the host emits a response. -/
theorem responsesOnlyGrow : Obligations.ResponsesOnlyGrow := by
  unfold Obligations.ResponsesOnlyGrow
  intro s t hstep
  rcases step_next hstep with ⟨rest, -, rfl⟩ | ⟨rest, -, rfl⟩ | ⟨rest, -, -, rfl⟩ | ⟨bytes, rest, -, -, rfl⟩ |
    ⟨u, hfrom, -, hengine⟩
  · exact .inl rfl
  · exact .inl (by simp)
  · exact .inl rfl
  · exact .inl rfl
  · obtain ⟨-, -, -, hop, -, -, -, hcmd, hrsp, -, -, -⟩ := hfrom.fields
    rw [← hop, ← hcmd, ← hrsp]
    exact engineStep_rsp hengine

/-- Settles O35: the port is not free for an offer, and a busy engine leaves it alone. -/
theorem heldCommandStaysHeld : Obligations.HeldCommandStaysHeld := by
  unfold Obligations.HeldCommandStaysHeld
  intro s t bytes hbusy hcmd hreset hstep
  rcases step_next hstep with ⟨rest, -, rfl⟩ | ⟨rest, hplan, rfl⟩ | ⟨rest, -, -, rfl⟩ | ⟨offered, rest, -, hfree, rfl⟩ |
    ⟨u, hfrom, -, hengine⟩
  · exact hcmd
  · exact absurd hplan (hreset rest)
  · exact hcmd
  · cases hcmd.symm.trans hfree
  · obtain ⟨-, -, -, hop, -, -, -, hcmd', -, -, -, -⟩ := hfrom.fields
    rw [engineStep_cmd_of_busy (hop ▸ hbusy) hengine, hcmd', hcmd]

end Sys2Proof.Machine
end

section
/-!
PROOFS. The micro-operations that work on the held command or end an operation, inside their conditions and outside of them
(40_key_schedule.md R125 to R127; 42_cipher_datapath.md R174, R175; 20_memory.md R77).
-/

namespace Sys2Proof.Machine

/-! ## The operands on the CMD port -/

/-- KS_LOAD has an operand exactly when an idle engine holds a LOAD_KEY of 16 bytes (R125). -/
theorem heldKey_eq_some_iff {s : State} {key : Block} :
    heldKey s = some key ↔ s.op = .idle ∧ s.cmd = some (encodeMessage 0x01 key.toList) := by
  refine ⟨fun h => ⟨heldKey_idle h, heldKey_cmd h⟩, fun ⟨hop, hcmd⟩ => ?_⟩
  have hdecode : decodeMessage (encodeMessage 0x01 key.toList) = .ok (.loadKey key.toList) :=
    decode_encodeMessage 0x01 (by simp)
  simp only [heldKey, hop, hcmd, hdecode, blockOf_toList]

/-- LOAD_STATE of an ENCRYPT of 16 bytes that an idle engine with a valid key holds (R174). -/
theorem heldLoad_of_encrypt {s : State} {b : Block} (hop : s.op = .idle) (hkey : s.keyValid = true)
    (hcmd : s.cmd = some (encodeMessage 0x02 b.toList)) : heldLoad s = some (startEncrypt b s) := by
  have hdecode : decodeMessage (encodeMessage 0x02 b.toList) = .ok (.encrypt b.toList) :=
    decode_encodeMessage 0x02 (by simp)
  simp only [heldLoad, hop, hkey, hcmd, hdecode, blockOf_toList, Option.map_some]

/-- LOAD_STATE of a DECRYPT of 16 bytes that an idle engine with a valid key holds (R174). -/
theorem heldLoad_of_decrypt {s : State} {b : Block} (hop : s.op = .idle) (hkey : s.keyValid = true)
    (hcmd : s.cmd = some (encodeMessage 0x03 b.toList)) : heldLoad s = some (startDecrypt b s) := by
  have hdecode : decodeMessage (encodeMessage 0x03 b.toList) = .ok (.decrypt b.toList) :=
    decode_encodeMessage 0x03 (by simp)
  simp only [heldLoad, hop, hkey, hcmd, hdecode, blockOf_toList, Option.map_some]

/-! ## Inside their conditions -/

theorem execKsLoad_of_heldKey {s : State} {key : Block} (h : heldKey s = some key) :
    execKsLoad s = .next (startExpansion key s) := by
  simp only [execKsLoad, h]

theorem execLoadState_of_heldLoad {s t : State} (h : heldLoad s = some t) : execLoadState s = .next t := by
  simp only [execLoadState, h]

/-- Settles O18: KS_LOAD finds the key the command carries, and its effect is that of the accept. -/
theorem ksLoadOnAHeldLoadKey : Obligations.KsLoadOnAHeldLoadKey := by
  unfold Obligations.KsLoadOnAHeldLoadKey
  intro s data hop hcmd hlen
  obtain ⟨W', haccept, hwords⟩ := (loadKeyAccept s data hop).1 hlen
  have hsame : exec .ksLoad s = exec (.loadKey data) s := by
    obtain ⟨key, rfl⟩ := exists_block_of_length_eq hlen
    exact (execKsLoad_of_heldKey (heldKey_eq_some_iff.2 ⟨hop, hcmd⟩)).trans (execLoadKey_of_key hop key).symm
  exact ⟨hsame, W', hsame.trans haccept, hwords⟩

/-- Settles O20: KS_DONE is enabled. -/
theorem ksDoneFinishes : Obligations.KsDoneFinishes := by
  unfold Obligations.KsDoneFinishes
  exact fun s hop hki => if_pos ⟨hop, hki⟩

/-- Settles O27: LOAD_STATE finds the block the command carries, and its effect is that of the accept. -/
theorem loadStateOnAHeldBlockCommand : Obligations.LoadStateOnAHeldBlockCommand := by
  unfold Obligations.LoadStateOnAHeldBlockCommand
  intro s data hop hkey hlen
  obtain ⟨S', hencrypt, hdecrypt, hbytes⟩ := (blockCommandAccept s data hop).2.2 hlen hkey
  obtain ⟨b, rfl⟩ := exists_block_of_length_eq hlen
  refine ⟨S', fun hcmd => ?_, fun hcmd => ?_, hbytes⟩
  · have hsame : exec .loadState s = exec (.encrypt b.toList) s :=
      (execLoadState_of_heldLoad (heldLoad_of_encrypt hop hkey hcmd)).trans (acceptBlock_of_keyValid hop hkey b).symm
    exact ⟨hsame.trans hencrypt, hsame⟩
  · have hsame : exec .loadState s = exec (.decrypt b.toList) s :=
      (execLoadState_of_heldLoad (heldLoad_of_decrypt hop hkey hcmd)).trans (acceptBlock_of_keyValid hop hkey b).symm
    exact ⟨hsame.trans hdecrypt, hsame⟩

/-- Settles O28: STORE_STATE is enabled, and answers the bytes of the matrix in block order. -/
theorem storeStateAnswersTheBlock : Obligations.StoreStateAnswersTheBlock := by
  unfold Obligations.StoreStateAnswersTheBlock
  exact fun s hop hu => ⟨fromMatrix s.S, if_pos ⟨hop, hu⟩, fromMatrix_getElem s.S⟩

/-- Settles O34: each of the three accepts asks first whether the engine is busy. -/
theorem busyEngineTakesNoCommand : Obligations.BusyEngineTakesNoCommand := by
  unfold Obligations.BusyEngineTakesNoCommand
  intro s data hop
  have hbusy : s.busy = true := busy_eq_true.2 hop
  exact ⟨if_pos hbusy, if_pos hbusy, if_pos hbusy⟩

/-! ## Outside of them -/

theorem exec_ksLoad_fault {s : State}
    (h : s.op ≠ .idle ∨ ∀ data, data.length = 16 → s.cmd ≠ some (encodeMessage 0x01 data)) :
    exec .ksLoad s = .fault .microOpNotEnabled := by
  have hnone : heldKey s = none := by
    rw [Option.eq_none_iff_forall_not_mem]
    intro key hkey
    obtain ⟨hop, hcmd⟩ := heldKey_eq_some_iff.1 hkey
    obtain h | h := h
    · exact h hop
    · exact h key.toList (by simp) hcmd
  simp only [exec, execKsLoad, hnone]

theorem exec_loadState_fault {s : State}
    (h : s.op ≠ .idle ∨ s.keyValid = false ∨ ∀ data, data.length = 16 →
      s.cmd ≠ some (encodeMessage 0x02 data) ∧ s.cmd ≠ some (encodeMessage 0x03 data)) :
    exec .loadState s = .fault .microOpNotEnabled := by
  have hnone : heldLoad s = none := by
    rw [Option.eq_none_iff_forall_not_mem]
    intro t ht
    obtain ⟨hop, hkey⟩ := heldLoad_idle ht
    obtain ⟨b, hcmd⟩ := heldLoad_cmd ht
    obtain h | h | h := h
    · exact h hop
    · cases hkey.symm.trans h
    · obtain ⟨henc, hdec⟩ := h b.toList (by simp)
      obtain ⟨hcmd, -⟩ | ⟨hcmd, -⟩ := hcmd
      · exact henc hcmd
      · exact hdec hcmd
  simp only [exec, execLoadState, hnone]

theorem exec_ksWord_fault {s : State} (h : s.op ≠ .keyExp ∨ 43 < s.ki) : exec .ksWord s = .fault .microOpNotEnabled := by
  refine dif_neg fun ⟨hop, hki⟩ => ?_
  obtain h | h := h
  · exact h hop
  · bv_omega

theorem exec_ksWord_outOfRange {s : State} (hop : s.op = .keyExp) (hki : s.ki < 4) :
    exec .ksWord s = .fault .wordOutOfRange := by
  have hnat : s.ki.toNat < 4 := hki
  exact (dif_pos ⟨hop, by omega⟩).trans (dif_neg (by omega))

theorem exec_ksDone_fault {s : State} (h : s.op ≠ .keyExp ∨ s.ki ≠ 44) : exec .ksDone s = .fault .microOpNotEnabled :=
  if_neg fun ⟨hop, hki⟩ => h.elim (· hop) (· hki)

theorem exec_storeState_fault {s : State} (h : (s.op ≠ .enc ∧ s.op ≠ .dec) ∨ s.uop ≠ codeStoreState) :
    exec .storeState s = .fault .microOpNotEnabled :=
  if_neg fun ⟨hop, hu⟩ => h.elim (fun ⟨henc, hdec⟩ => hop.elim henc hdec) (· hu)

theorem exec_addRoundKey_outOfRange {s : State} (h : 10 < s.rnd) : exec .addRoundKey s = .fault .wordOutOfRange :=
  dif_neg (by bv_omega)

theorem acceptBlock_ne_refused {start : Block → State → State} {data : List Byte} {s : State} {r : Refusal} :
    acceptBlock start data s ≠ .refused r := by
  unfold acceptBlock
  split
  · nofun
  · split
    · nofun
    · split <;> nofun

/-- No meaning refuses. -/
theorem exec_ne_refused (i : Instr) (s : State) (r : Refusal) : exec i s ≠ .refused r := by
  cases i with
  | loadKey data =>
    simp only [exec, execLoadKey]
    split
    · nofun
    · split <;> nofun
  | encrypt data => exact acceptBlock_ne_refused
  | decrypt data => exact acceptBlock_ne_refused
  | ksLoad => simp only [exec, execKsLoad]; split <;> nofun
  | ksWord =>
    simp only [exec, execKsWord]
    split
    · split <;> nofun
    · nofun
  | ksDone => simp only [exec, execKsDone]; split <;> nofun
  | loadState => simp only [exec, execLoadState]; split <;> nofun
  | addRoundKey => simp only [exec, execAddRoundKey]; split <;> nofun
  | storeState => simp only [exec, execStoreState]; split <;> nofun
  | _ => nofun

end Sys2Proof.Machine
end

section
/-!
PROOFS. What the step does on each side's turn, and where it stops (42_cipher_datapath.md R178, R184; 30_encoding.md R94,
R100).
-/

namespace Sys2Proof.Machine

/-! ## The engine's turn -/

/-- The engine stops where the meaning of what it finds to do faults. -/
theorem engineStep_of_fetch_run_fault {s : State} {i : Instr} {f : Fault} (h : fetch s = .run i)
    (hexec : exec i s = .fault f) : engineStep s = .fault f := by
  simp only [engineStep, h, hexec]

/-- Idle and in a key expansion the position does not move, so the engine's transition is the instruction's meaning. -/
theorem engineStep_of_fetch_run_of_noBlock {s : State} {i : Instr} (hop : s.op = .idle ∨ s.op = .keyExp)
    (h : fetch s = .run i) : engineStep s = exec i s := by
  have hadvance (t : State) : advance s t = .next t := by
    obtain hop | hop := hop <;> simp only [advance, hop]
  rcases hexec : exec i s with t | f | r
  · simp only [engineStep, h, hexec, hadvance]
  · exact engineStep_of_fetch_run_fault h hexec
  · exact absurd hexec (exec_ne_refused i s r)

/-- In ENC and DEC the engine finds to do what the code in `UOP` asks for. -/
theorem fetch_of_block {s : State} (hop : s.op = .enc ∨ s.op = .dec) : fetch s = fetched (decode (.code s.uop)) := by
  obtain hop | hop := hop <;> simp only [fetch, hop]

theorem engineStep_of_code_fault {s : State} {i : Instr} {f : Fault} (hop : s.op = .enc ∨ s.op = .dec)
    (hdecode : decode (.code s.uop) = .ok i) (hexec : exec i s = .fault f) : engineStep s = .fault f :=
  engineStep_of_fetch_run_fault (by rw [fetch_of_block hop, hdecode, fetched]) hexec

/-- After a micro-operation but STORE_STATE the position moves by the table of the operation, or the engine stops. -/
theorem advance_of_block {s t : State} (hop : s.op = .enc ∨ s.op = .dec) (hstore : s.uop ≠ codeStoreState) :
    advance s t = moveTo (if s.op = .enc then nextEncrypt s.rnd s.uop else nextDecrypt s.rnd s.uop) t := by
  obtain hop | hop := hop <;> simp [advance, hop, hstore]

/-- Settles O30: each clause is the engine's transition at what it finds to do. -/
theorem stepRunsTheDecodedInstruction : Obligations.StepRunsTheDecodedInstruction := by
  unfold Obligations.StepRunsTheDecodedInstruction
  intro s u hturn
  rw [step_of_engineTurn hturn]
  refine ⟨fun hplan => ?_, fun rest hplan => ?_, fun bytes i hop hcmd hdecode => ?_, fun hop hki => ?_, fun hop hki => ?_,
    fun i hop hdecode => ⟨fun f hexec => engineStep_of_code_fault hop hdecode hexec,
      fun f hexec => absurd hexec (exec_ne_refused i u f), fun t hexec hstore => ?_, fun t hexec hstore p hp => ?_⟩⟩
  · simp only [hostTurn, hplan, Turn.engine.injEq] at hturn
    exact hturn.symm
  · simp only [hostTurn, hplan, Turn.engine.injEq] at hturn
    exact hturn.symm
  · exact engineStep_of_fetch_run_of_noBlock (.inl hop) (by rw [fetch_of_held hop hcmd, hdecode, fetched])
  · exact engineStep_of_fetch_run_of_noBlock (.inr hop) (by simp only [fetch, hop, hki, if_true])
  · have hlast : ¬ u.ki ≤ 43 := by bv_omega
    exact engineStep_of_fetch_run_of_noBlock (.inr hop) (by simp only [fetch, hop, hlast, if_false])
  · rw [engineStep_of_code hop hdecode hexec]
    obtain hop | hop := hop <;> simp only [advance, hop, hstore, if_true]
  · rw [engineStep_of_code hop hdecode hexec, advance_of_block hop hstore, ← hp]
    exact ⟨fun r k hsome => by rw [hsome]; rfl, fun hnone => by rw [hnone]; rfl⟩

/-- Settles O36: it is the engine's turn, and it has nothing to do. -/
theorem idleEngineWaits : Obligations.IdleEngineWaits := by
  unfold Obligations.IdleEngineWaits
  exact fun s hplan hop hcmd => (step_of_plan_nil hplan).trans (engineStep_of_cmd_none hop hcmd)

/-! ## The host's turn -/

/-- Settles O40: whose turn it is, for each of the two actions that may have to wait. -/
theorem hostOffersAndReads : Obligations.HostOffersAndReads := by
  unfold Obligations.HostOffersAndReads
  intro s rest
  refine ⟨fun bytes hplan hcmd => ?_, fun bytes m hplan hcmd => ?_, fun hplan hunread => ?_, fun hplan hread => ?_⟩
  · exact step_of_hostTurn (t := (s.setPlan rest).setCmd (some bytes)) (by simp only [hostTurn, hplan, hcmd])
  · exact step_of_engineTurn (by simp only [hostTurn, hplan, hcmd])
  · exact step_of_hostTurn (t := (s.setPlan rest).readResponse) (by simp only [hostTurn, hplan, hunread, if_true])
  · exact step_of_engineTurn (by simp only [hostTurn, hplan, hread.not_gt, if_false])

/-! ## Where the engine stops -/

/-- A code below ADD_ROUND_KEY is a micro-operation that no block operation enables (R178). -/
theorem engineStep_of_code_lt {s : State} (hop : s.op = .enc ∨ s.op = .dec) (hu : s.uop < codeAddRoundKey) :
    engineStep s = .fault .microOpNotEnabled := by
  have hidle : s.op ≠ .idle := by obtain hop | hop := hop <;> simp [hop]
  have hkeyExp : s.op ≠ .keyExp := by obtain hop | hop := hop <;> simp [hop]
  have hcodes : ∀ c : BitVec 4, c < codeAddRoundKey → c = 0x0 ∨ c = 0x1 ∨ c = 0x2 ∨ c = 0x3 := by decide
  obtain hu | hu | hu | hu := hcodes _ hu
  · exact engineStep_of_code_fault hop (by rw [hu]; rfl) (exec_ksLoad_fault (.inl hidle))
  · exact engineStep_of_code_fault hop (by rw [hu]; rfl) (exec_ksWord_fault (.inl hkeyExp))
  · exact engineStep_of_code_fault hop (by rw [hu]; rfl) (exec_ksDone_fault (.inl hkeyExp))
  · exact engineStep_of_code_fault hop (by rw [hu]; rfl) (exec_loadState_fault (.inl hidle))

/-- A code above STORE_STATE is unused (R100). -/
theorem engineStep_of_code_unused {s : State} (hop : s.op = .enc ∨ s.op = .dec) (hu : codeStoreState < s.uop) :
    engineStep s = .fault .unusedMicroOp := by
  have hcodes : ∀ c : BitVec 4, codeStoreState < c → 0xC ≤ c := by decide
  have hfetch : fetch s = .unusedCode := by
    rw [fetch_of_block hop, decode, decodeMicroOp_unused _ (hcodes _ hu), fetched]
  simp only [engineStep, hfetch]

/-- The codes between ADD_ROUND_KEY and STORE_STATE have a transform in every round. -/
theorem transformAt_of_code_between {u : BitVec 4} (hlo : codeAddRoundKey < u) (hhi : u < codeStoreState) (W : Table)
    (r : BitVec 4) (S : StateMatrix) : ∃ S', transformAt W r u S = some S' := by
  have hcodes : ∀ c : BitVec 4, codeAddRoundKey < c → c < codeStoreState →
      c = codeSubBytes ∨ c = codeShiftRows ∨ c = codeMixColumns ∨ c = codeInvSubBytes ∨ c = codeInvShiftRows ∨
        c = codeInvMixColumns := by decide
  obtain rfl | rfl | rfl | rfl | rfl | rfl := hcodes u hlo hhi <;> exact ⟨_, rfl⟩

/-- A transform at a position without a next one is performed, and then the engine stops (R178). -/
theorem engineStep_offTheWalk {s : State} (hop : s.op = .enc ∨ s.op = .dec) (hlo : codeAddRoundKey < s.uop)
    (hhi : s.uop < codeStoreState)
    (hoff : (if s.op = .enc then nextEncrypt s.rnd s.uop else nextDecrypt s.rnd s.uop) = none) :
    engineStep s = .fault .positionOffTheWalk := by
  obtain ⟨S', hS⟩ := transformAt_of_code_between hlo hhi s.W s.rnd s.S
  obtain ⟨i, hdecode, hexec⟩ := exec_of_transformAt hS
  have hstore : s.uop ≠ codeStoreState := by rintro hu; rw [hu] at hhi; exact absurd hhi (by decide)
  rw [engineStep_of_code hop hdecode hexec, advance_of_block hop hstore, hoff, moveTo]

/-- Settles O37: the meanings outside their conditions, and the engine's transition at each kind of code and bytes. -/
theorem whereTheModelStops : Obligations.WhereTheModelStops := by
  unfold Obligations.WhereTheModelStops
  refine ⟨fun s => ⟨exec_ksLoad_fault, exec_loadState_fault, exec_ksWord_fault, exec_ksWord_outOfRange, exec_ksDone_fault,
    exec_storeState_fault, exec_addRoundKey_outOfRange, fun i => exec_ne_refused i s⟩, fun s u hturn => ?_⟩
  rw [step_of_engineTurn hturn]
  refine ⟨fun hop => ⟨engineStep_of_code_lt hop, fun hu hr => ?_, engineStep_of_code_unused hop⟩,
    fun hop hlo hhi hoff => engineStep_offTheWalk (.inl hop) hlo hhi ?_,
    fun hop hlo hhi hoff => engineStep_offTheWalk (.inr hop) hlo hhi ?_,
    fun bytes hop hcmd => engineStep_of_not_isMessage hop hcmd⟩
  · exact engineStep_of_code_fault hop (by rw [hu]; rfl) (exec_addRoundKey_outOfRange hr)
  · rw [if_pos hop, ← Option.not_isSome_iff_eq_none]
    exact fun hsome => hoff (nextEncrypt_isSome hsome).1
  · rw [if_neg (by simp [hop]), ← Option.not_isSome_iff_eq_none]
    exact fun hsome => hoff (nextDecrypt_isSome hsome).1

end Sys2Proof.Machine
end

section
/-!
PROOFS. The forms of a block (20_memory.md R61 to R63), and the two cipher functions, each of which undoes the other
(42_cipher_datapath.md R171, R173, R180).
-/

namespace Sys2Proof

/-! ## Blocks and matrices -/

theorem fromMatrix_toMatrix (b : Block) : fromMatrix (toMatrix b) = b := by
  refine Vector.ext fun i hi => ?_
  have hbyte : i % 4 + 4 * (i / 4) = i := by omega
  simp only [fromMatrix_getElem, toMatrix_get, hbyte]

theorem toMatrix_fromMatrix (M : StateMatrix) : toMatrix (fromMatrix M) = M :=
  StateMatrix.ext_get fun r c => by
    have hrow : (r.val + 4 * c.val) % 4 = r.val := by omega
    have hcol : (r.val + 4 * c.val) / 4 = c.val := by omega
    simp only [toMatrix_get, fromMatrix_getElem, hrow, hcol]

/-! ## Blocks and integers -/

/-- One turn of the loop of `BytesToInt`: the next byte below those before it (R62). -/
def pushByte (x : BitVec 128) (v : Byte) : BitVec 128 := (x <<< 8) ^^^ v.setWidth 128

/-- The new byte is the low eight bits, the others move up. -/
theorem pushByte_getLsbD (x : BitVec 128) (v : Byte) {k : Nat} (hk : k < 128) :
    (pushByte x v).getLsbD k = if k < 8 then v.getLsbD k else x.getLsbD (k - 8) := by
  rw [pushByte, BitVec.getLsbD_xor, BitVec.getLsbD_shiftLeft, BitVec.getLsbD_setWidth]
  by_cases hlow : k < 8
  · simp [hlow, hk]
  · have hhigh : v.getLsbD k = false := BitVec.getLsbD_of_ge v k (by omega)
    simp [hlow, hk, hhigh]

/-- In bytes put together, the last of a list first, bit `k` is in byte `k / 8`. -/
theorem foldr_pushByte_getLsbD (l : List Byte) {k : Nat} (hk : k < 128) :
    (l.foldr (fun v x => pushByte x v) 0).getLsbD k = (l.getD (k / 8) 0).getLsbD (k % 8) := by
  induction l generalizing k with
  | nil => simp
  | cons v l ih =>
    rw [List.foldr_cons, pushByte_getLsbD _ _ hk]
    by_cases hlow : k < 8
    · have hquot : k / 8 = 0 := by omega
      have hrem : k % 8 = k := by omega
      rw [if_pos hlow, hquot, hrem, List.getD_cons_zero]
    · have hquot : k / 8 = (k - 8) / 8 + 1 := by omega
      have hrem : k % 8 = (k - 8) % 8 := by omega
      rw [if_neg hlow, ih (by omega), hquot, hrem, List.getD_cons_succ]

/-- Bit `k` of the integer of a block is bit `k mod 8` of byte `15 - k / 8` (R61). -/
theorem bytesToInt_getLsbD (b : Block) {k : Nat} (hk : k < 128) :
    (bytesToInt b).getLsbD k = b[15 - k / 8].getLsbD (k % 8) := by
  have hrev : bytesToInt b = b.toList.reverse.foldr (fun v x => pushByte x v) 0 := by
    rw [List.foldr_reverse]; rfl
  have hbyte : b.toList.reverse.getD (k / 8) 0 = b[15 - k / 8] := by
    rw [List.getD_eq_getElem _ _ (by simp; omega), List.getElem_reverse]
    simp
  rw [hrev, foldr_pushByte_getLsbD _ hk, hbyte]

/-- Byte `i` of an integer is its bits `[127-8i : 120-8i]` (R61). -/
theorem intToBytes_getElem (x : BitVec 128) (i : Nat) (h : i < 16) :
    (intToBytes x)[i] = x.extractLsb' (120 - 8 * i) 8 := by
  have hshift : 8 * (15 - i) = 120 - 8 * i := by omega
  simp only [intToBytes, Vector.getElem_ofFn, hshift]
  ext j hj
  rw [BitVec.getElem_extractLsb', BitVec.getElem_setWidth, BitVec.getLsbD_ushiftRight]

/-- Settles O5: each form read bit by bit, or byte by byte, in the other. -/
theorem blockFormsAreInverse : Obligations.BlockFormsAreInverse := by
  unfold Obligations.BlockFormsAreInverse
  refine ⟨fun x => ?_, fun b => ?_, intToBytes_getElem, fromMatrix_toMatrix, toMatrix_fromMatrix, fun b i h => ?_⟩
  · refine BitVec.eq_of_getLsbD_eq fun k hk => ?_
    have hbit : 120 - 8 * (15 - k / 8) + k % 8 = k := by omega
    rw [bytesToInt_getLsbD _ hk, intToBytes_getElem, BitVec.getLsbD_extractLsb', hbit]
    simp [Nat.mod_lt]
  · refine Vector.ext fun i hi => BitVec.eq_of_getLsbD_eq fun j hj => ?_
    have hbyte : 15 - (120 - 8 * i + j) / 8 = i := by omega
    have hbit : (120 - 8 * i + j) % 8 = j := by omega
    rw [intToBytes_getElem _ i hi, BitVec.getLsbD_extractLsb', bytesToInt_getLsbD _ (by omega)]
    simp only [hj, decide_true, Bool.true_and, hbyte, hbit]
  · have hbyte : i % 4 + 4 * (i / 4) = i := by omega
    simp only [toMatrix_get, hbyte]

end Sys2Proof

namespace Sys2Proof.Machine

/-! ## The cipher functions -/

@[simp] theorem keyed_keyed (W : Table) (r : Fin 11) (S : StateMatrix) : keyed W r (keyed W r S) = S :=
  addRoundKey_addRoundKey S (roundKey W r)

theorem decryptRound_encryptRound (W : Table) (S : StateMatrix) (r : Fin 11) :
    decryptRound W (encryptRound W S r) r = S := by
  rw [encryptRound, decryptRound, keyed_keyed, invMixColumns_mixColumns, invShiftRows_shiftRows, invSubBytes_subBytes]

theorem encryptRound_decryptRound (W : Table) (S : StateMatrix) (r : Fin 11) :
    encryptRound W (decryptRound W S r) r = S := by
  rw [encryptRound, decryptRound, subBytes_invSubBytes, shiftRows_invShiftRows, mixColumns_invMixColumns, keyed_keyed]

/-- Rounds that are undone one by one are undone in the reverse order. -/
theorem foldl_reverse_foldl {α β : Type} {f g : α → β → α} (h : ∀ a b, g (f a b) b = a) (l : List β) (a : α) :
    l.reverse.foldl g (l.foldl f a) = a := by
  induction l generalizing a with
  | nil => rfl
  | cons b l ih => rw [List.foldl_cons, List.reverse_cons, List.foldl_append, ih, List.foldl_cons, List.foldl_nil, h]

theorem decrypt_encrypt (b : Block) (W : Table) : decrypt (encrypt b W) W = b := by
  have hrounds := foldl_reverse_foldl (decryptRound_encryptRound W) [1, 2, 3, 4, 5, 6, 7, 8, 9] (keyed W 0 (toMatrix b))
  simp only [decrypt, encrypt, toMatrix_fromMatrix, keyed_keyed, invShiftRows_shiftRows, invSubBytes_subBytes]
  rw [show [9, 8, 7, 6, 5, 4, 3, 2, 1] = ([1, 2, 3, 4, 5, 6, 7, 8, 9] : List (Fin 11)).reverse from rfl, hrounds,
    keyed_keyed, fromMatrix_toMatrix]

theorem encrypt_decrypt (b : Block) (W : Table) : encrypt (decrypt b W) W = b := by
  have hrounds := foldl_reverse_foldl (encryptRound_decryptRound W) [9, 8, 7, 6, 5, 4, 3, 2, 1]
    (invSubBytes (invShiftRows (keyed W 10 (toMatrix b))))
  simp only [decrypt, encrypt, toMatrix_fromMatrix, keyed_keyed]
  rw [show [1, 2, 3, 4, 5, 6, 7, 8, 9] = ([9, 8, 7, 6, 5, 4, 3, 2, 1] : List (Fin 11)).reverse from rfl, hrounds,
    subBytes_invSubBytes, shiftRows_invShiftRows, keyed_keyed, fromMatrix_toMatrix]

/-- Settles O29: the rounds of one function undo those of the other, in the reverse order. -/
theorem cipherFunctionsAreInverse : Obligations.CipherFunctionsAreInverse := by
  unfold Obligations.CipherFunctionsAreInverse
  exact fun b W => ⟨decrypt_encrypt b W, encrypt_decrypt b W⟩

end Sys2Proof.Machine
end

section
/-!
PROOFS. The word helpers of the key schedule (40_key_schedule.md R122 to R124) and the constant tables (10_state.md R30 to
R32; 41_round_transforms.md R143).
-/

namespace Sys2Proof

/-- Bit `k` of a word's number is in byte `3 - k / 8` (R65). -/
theorem Word.toBits_getLsbD (w : Word) (k : Nat) :
    w.toBits.getLsbD k =
      if k < 8 then w.b3.getLsbD k
      else if k < 16 then w.b2.getLsbD (k - 8)
      else if k < 24 then w.b1.getLsbD (k - 16)
      else w.b0.getLsbD (k - 24) := by
  change BitVec.getLsbD (w := 8 + 8 + 8 + 8) (w.b0 ++ w.b1 ++ w.b2 ++ w.b3) k = _
  simp only [BitVec.getLsbD_append, Nat.sub_sub]
  grind

end Sys2Proof

namespace Sys2Proof.Machine

/-! ## Words -/

/-- ROT_WORD is the rotation of the number by eight bits to the left (R122). -/
theorem rotWord_toBits (w : Word) : (rotWord w).toBits = (w.toBits <<< 8) ^^^ (w.toBits >>> 24) := by
  refine BitVec.eq_of_getLsbD_eq fun k hk => ?_
  have hbeyond (b : Byte) (h : 8 ≤ k) : b.getLsbD k = false := BitVec.getLsbD_of_ge b k h
  simp only [BitVec.getLsbD_xor, BitVec.getLsbD_shiftLeft, BitVec.getLsbD_ushiftRight, Word.toBits_getLsbD, rotWord, hk,
    decide_true, Bool.true_and]
  grind

/-- A byte added to byte 0 of a word is added to bits [31:24] of its number (R124). -/
theorem toBits_xor_b0 (w : Word) (c : Byte) :
    Word.toBits ⟨w.b0 ^^^ c, w.b1, w.b2, w.b3⟩ = w.toBits ^^^ (c.setWidth 32 <<< 24) := by
  refine BitVec.eq_of_getLsbD_eq fun k hk => ?_
  simp only [BitVec.getLsbD_xor, BitVec.getLsbD_shiftLeft, BitVec.getLsbD_setWidth, Word.toBits_getLsbD, hk,
    decide_true, Bool.true_and]
  grind

theorem subWord_byte (w : Word) (k : Fin 4) : (subWord w).byte k = sbox (w.byte k) := by
  fin_cases k <;> rfl

/-- Settles O13: as bytes by definition, as numbers bit by bit. -/
theorem wordHelpers : Obligations.WordHelpers := by
  unfold Obligations.WordHelpers
  refine ⟨fun _ _ _ _ => rfl, rotWord_toBits, fun _ => rfl, subWord_byte, fun _ => rfl, fun w j => ?_⟩
  exact toBits_xor_b0 (subWord (rotWord w)) (rcon j)

/-! ## Multiplication by constants -/

/-- Settles O8: the doublings that the bits of each constant select, in the order of the spec's table. -/
theorem gmulByTheSevenConstants : Obligations.GmulByTheSevenConstants := by
  unfold Obligations.GmulByTheSevenConstants
  intro b
  refine ⟨gmul_one b, gmul_two b, ?_, ?_, ?_, ?_, ?_⟩
  · rw [gmul_three]; ac_rfl
  · rw [gmul_nine]; ac_rfl
  · rw [gmul_eleven]; ac_rfl
  · rw [gmul_thirteen]; ac_rfl
  · rw [gmul_fourteen]; ac_rfl

/-! ## The tables -/

theorem sbox_ne : ∀ x : Byte, sbox x ≠ x ∧ sbox x ≠ x ^^^ 0xFF := by decide +kernel

/-- Settles O10: the tables undo each other, and no entry of SBOX is its index or the complement of it. -/
theorem substitutionTablesAreInverse : Obligations.SubstitutionTablesAreInverse := by
  unfold Obligations.SubstitutionTablesAreInverse
  intro x
  exact ⟨invSbox_sbox x, sbox_invSbox x, sbox_ne x⟩

/-- The byte that the affine map of R30 takes to `z`: the inverse of that map. -/
def affineInverse (z : Byte) : Byte := z.rotateLeft 1 ^^^ z.rotateLeft 3 ^^^ z.rotateLeft 6 ^^^ 0x05

/-- The affine map of R30, bit by bit, undoes `affineInverse`. -/
theorem affineInverse_getLsbD : ∀ z : Byte, ∀ i < 8, z.getLsbD i =
    ((affineInverse z).getLsbD i ^^ (affineInverse z).getLsbD ((i + 4) % 8) ^^
      (affineInverse z).getLsbD ((i + 5) % 8) ^^ (affineInverse z).getLsbD ((i + 6) % 8) ^^
      (affineInverse z).getLsbD ((i + 7) % 8) ^^ (0x63 : Byte).getLsbD i) := by
  decide +kernel

/-- What the affine map takes to `SBOX[x]` is the multiplicative inverse of `x`: the table, entry by entry. -/
theorem gmul_affineInverse_sbox : ∀ x : Byte, x ≠ 0 → gmul x (affineInverse (sbox x)) = 0x01 := by decide +kernel

/-- Settles O11: the affine map can be undone, and what it then leaves of the table is the inverses, and zero for zero. -/
theorem sboxIsTheAffineMapOfTheInverse : Obligations.SboxIsTheAffineMapOfTheInverse := by
  unfold Obligations.SboxIsTheAffineMapOfTheInverse
  intro x
  exact ⟨affineInverse (sbox x), fun hzero => by rw [hzero]; rfl, gmul_affineInverse_sbox x,
    affineInverse_getLsbD (sbox x)⟩

/-- Settles O12: the nine doublings, one by one. -/
theorem rconEntriesAreDoublings : Obligations.RconEntriesAreDoublings := by
  unfold Obligations.RconEntriesAreDoublings
  refine ⟨rfl, fun ⟨j, hj⟩ h1 h9 ⟨k, hk⟩ hnext => ?_⟩
  obtain rfl : k = j + 1 := hnext
  change 1 ≤ j at h1
  change j ≤ 9 at h9
  interval_cases j <;> decide +revert

end Sys2Proof.Machine
end

section
/-!
PROOFS. Whole commands with no host action to come: what the steps of R178 make of the table and of the block is what the
functions `Expand`, `Encrypt` and `Decrypt` say (40_key_schedule.md R121, R128; 42_cipher_datapath.md R171, R173, R179).
-/

namespace Sys2Proof.Machine

/-! ## The transforms along a walk -/

/-- The transforms of a list of positions, one after the other. -/
def transformsAlong (W : Table) (ps : List (BitVec 4 × BitVec 4)) (S : StateMatrix) : Option StateMatrix :=
  ps.foldlM (fun S p => transformAt W p.1 p.2 S) S

theorem transformsAlong_append (W : Table) (ps qs : List (BitVec 4 × BitVec 4)) (S : StateMatrix) :
    transformsAlong W (ps ++ qs) S = (transformsAlong W ps S).bind (transformsAlong W qs) :=
  List.foldlM_append

theorem transformsAlong_singleton (W : Table) (p : BitVec 4 × BitVec 4) (S : StateMatrix) :
    transformsAlong W [p] S = transformAt W p.1 p.2 S := by
  simp [transformsAlong]

/-- Rounds that each have a list of positions, one after the other. -/
theorem transformsAlong_flatMap {W : Table} {ps : Fin 11 → List (BitVec 4 × BitVec 4)}
    {round : StateMatrix → Fin 11 → StateMatrix} (h : ∀ S r, transformsAlong W (ps r) S = some (round S r))
    (rs : List (Fin 11)) (S : StateMatrix) : transformsAlong W (rs.flatMap ps) S = some (rs.foldl round S) := by
  induction rs generalizing S with
  | nil => rfl
  | cons r rs ih => rw [List.flatMap_cons, transformsAlong_append, h, Option.bind_some, ih, List.foldl_cons]

/-- ADD_ROUND_KEY in round `r` adds round key `r` (R145). -/
theorem transformsAlong_addRoundKey {r : BitVec 4} {n : Fin 11} (h : r.toNat = n.val) (W : Table) (S : StateMatrix) :
    transformsAlong W [(r, codeAddRoundKey)] S = some (keyed W n S) := by
  obtain ⟨n, hn⟩ := n
  change r.toNat = n at h
  subst h
  exact (transformsAlong_singleton W _ S).trans (dif_pos hn)

/-- A round number as the counter `RND` holds it. -/
theorem toNat_ofNat_round (r : Fin 11) : (BitVec.ofNat 4 r.val).toNat = r.val := by
  rw [BitVec.toNat_ofNat]
  exact Nat.mod_eq_of_lt (by omega)

/-- The positions of a full forward round perform it (R171). -/
theorem transformsAlong_encryptRound (W : Table) (S : StateMatrix) (r : Fin 11) :
    transformsAlong W [(BitVec.ofNat 4 r.val, codeSubBytes), (BitVec.ofNat 4 r.val, codeShiftRows),
      (BitVec.ofNat 4 r.val, codeMixColumns), (BitVec.ofNat 4 r.val, codeAddRoundKey)] S = some (encryptRound W S r) := by
  calc transformsAlong W _ S
    _ = transformsAlong W [(BitVec.ofNat 4 r.val, codeAddRoundKey)] (mixColumns (shiftRows (subBytes S))) := rfl
    _ = some (encryptRound W S r) := transformsAlong_addRoundKey (toNat_ofNat_round r) W _

/-- The positions of a full inverse round perform it (R173). -/
theorem transformsAlong_decryptRound (W : Table) (S : StateMatrix) (r : Fin 11) :
    transformsAlong W [(BitVec.ofNat 4 r.val, codeAddRoundKey), (BitVec.ofNat 4 r.val, codeInvMixColumns),
      (BitVec.ofNat 4 r.val, codeInvShiftRows), (BitVec.ofNat 4 r.val, codeInvSubBytes)] S =
      some (decryptRound W S r) := by
  rw [← List.singleton_append, transformsAlong_append, transformsAlong_addRoundKey (toNat_ofNat_round r)]
  rfl

/-- The walk of an encryption, but for STORE_STATE, computes `Encrypt` (R171, R176). -/
theorem transformsAlong_encryptWalk (W : Table) (block : Block) :
    (transformsAlong W (encryptWalk.take 40) (toMatrix block)).map fromMatrix = some (encrypt block W) := by
  have hwalk : encryptWalk.take 40 = [(0, codeAddRoundKey)] ++
      ([1, 2, 3, 4, 5, 6, 7, 8, 9] : List (Fin 11)).flatMap (fun r =>
        [(BitVec.ofNat 4 r.val, codeSubBytes), (BitVec.ofNat 4 r.val, codeShiftRows),
          (BitVec.ofNat 4 r.val, codeMixColumns), (BitVec.ofNat 4 r.val, codeAddRoundKey)]) ++
      [(10, codeSubBytes), (10, codeShiftRows), (10, codeAddRoundKey)] := by decide
  have hfirst : transformsAlong W [(0, codeAddRoundKey)] (toMatrix block) = some (keyed W 0 (toMatrix block)) :=
    transformsAlong_addRoundKey rfl W (toMatrix block)
  have hlast (S : StateMatrix) : transformsAlong W [(10, codeSubBytes), (10, codeShiftRows), (10, codeAddRoundKey)] S =
      some (keyed W 10 (shiftRows (subBytes S))) :=
    transformsAlong_addRoundKey (r := 10) (n := 10) rfl W (shiftRows (subBytes S))
  rw [hwalk, transformsAlong_append, transformsAlong_append, hfirst, Option.bind_some,
    transformsAlong_flatMap (transformsAlong_encryptRound W), Option.bind_some, hlast]
  rfl

/-- The walk of a decryption, but for STORE_STATE, computes `Decrypt` (R173, R177). -/
theorem transformsAlong_decryptWalk (W : Table) (block : Block) :
    (transformsAlong W (decryptWalk.take 40) (toMatrix block)).map fromMatrix = some (decrypt block W) := by
  have hwalk : decryptWalk.take 40 = [(10, codeAddRoundKey), (10, codeInvShiftRows), (10, codeInvSubBytes)] ++
      ([9, 8, 7, 6, 5, 4, 3, 2, 1] : List (Fin 11)).flatMap (fun r =>
        [(BitVec.ofNat 4 r.val, codeAddRoundKey), (BitVec.ofNat 4 r.val, codeInvMixColumns),
          (BitVec.ofNat 4 r.val, codeInvShiftRows), (BitVec.ofNat 4 r.val, codeInvSubBytes)]) ++
      [(0, codeAddRoundKey)] := by decide
  have hfirst : transformsAlong W [(10, codeAddRoundKey), (10, codeInvShiftRows), (10, codeInvSubBytes)]
      (toMatrix block) = some (invSubBytes (invShiftRows (keyed W 10 (toMatrix block)))) := by
    rw [← List.singleton_append, transformsAlong_append, transformsAlong_addRoundKey (r := 10) (n := 10) rfl]
    rfl
  have hlast (S : StateMatrix) : transformsAlong W [(0, codeAddRoundKey)] S = some (keyed W 0 S) :=
    transformsAlong_addRoundKey rfl W S
  rw [hwalk, transformsAlong_append, transformsAlong_append, hfirst, Option.bind_some,
    transformsAlong_flatMap (transformsAlong_decryptRound W), Option.bind_some, hlast]
  rfl

/-! ## The engine along a walk -/

/-- From position `m` of its walk the engine is at position `m + n` after `n` steps, with the transforms of the positions
between performed; nothing but the matrix and the position has changed (R176 to R178). -/
theorem run_walk_transforms {s : State} (hplan : s.plan = []) {m n : ℕ}
    (hstart : (walk s.op)[m]? = some (s.rnd, s.uop)) {r k : BitVec 4} (h : (walk s.op)[m + n]? = some (r, k)) :
    ∃ S', transformsAlong s.W (((walk s.op).drop m).take n) s.S = some S' ∧
      Host.Core.run Sys2Proof.core n s = .next ((s.setMatrix S').setPosition r k) := by
  induction n generalizing r k with
  | zero =>
    cases hstart.symm.trans h
    exact ⟨s.S, rfl, rfl⟩
  | succ n ih =>
    have hn : m + n < (walk s.op).length := Nat.lt_of_succ_lt (List.getElem?_eq_some_iff.1 h).1
    obtain ⟨⟨r₀, k₀⟩, hpos, hnext⟩ := Option.bind_eq_some_iff.1 ((walk_next s.op (m + n) hn).trans h)
    obtain ⟨S₀, htransforms, hrun⟩ := ih hpos
    obtain ⟨S', hS, hstep⟩ := engineStep_of_nextPosition (s := (s.setMatrix S₀).setPosition r₀ k₀) hnext
    refine ⟨S', ?_, run_succ_of_engineStep hrun hplan hstep⟩
    have hone : transformsAlong s.W [(r₀, k₀)] S₀ = some S' := (transformsAlong_singleton s.W _ S₀).trans hS
    rw [List.take_add_one, List.getElem?_drop, hpos, Option.toList_some, transformsAlong_append, htransforms,
      Option.bind_some, hone]

/-- From position `m` of its walk a block operation ends, with its block as the response, after `41 - m` steps (R185). -/
theorem run_walk_end {s : State} (hplan : s.plan = []) {m : ℕ} (hop : s.op = .enc ∨ s.op = .dec)
    (hstart : (walk s.op)[m]? = some (s.rnd, s.uop)) :
    m ≤ 40 ∧ ∃ S' r, transformsAlong s.W (((walk s.op).drop m).take (40 - m)) s.S = some S' ∧
      Host.Core.run Sys2Proof.core (40 - m + 1) s =
        .next ((((s.setMatrix S').setPosition r codeStoreState).respond .ok (fromMatrix S').toList).setOp .idle) := by
  obtain ⟨hlen, r, hend⟩ : (walk s.op).length = 41 ∧ ∃ r, (walk s.op)[40]? = some (r, codeStoreState) := by
    obtain hop | hop := hop <;> rw [hop] <;> exact ⟨rfl, _, rfl⟩
  have hm : m ≤ 40 := by
    have := (List.getElem?_eq_some_iff.1 hstart).1
    omega
  have hpos : (walk s.op)[m + (40 - m)]? = some (r, codeStoreState) := by rwa [Nat.add_sub_cancel' hm]
  obtain ⟨S', htransforms, hrun⟩ := run_walk_transforms hplan hstart hpos
  exact ⟨hm, S', r, htransforms, run_succ_of_engineStep hrun hplan (engineStep_of_storeState hop rfl)⟩

/-- From the first position of its walk a block operation answers what the transforms of the walk make of its matrix. -/
theorem run_walk_result {s : State} {result : Block} (hplan : s.plan = []) (hop : s.op = .enc ∨ s.op = .dec)
    (hstart : (walk s.op)[0]? = some (s.rnd, s.uop))
    (hresult : (transformsAlong s.W ((walk s.op).take 40) s.S).map fromMatrix = some result) :
    ∃ S' r, Host.Core.run Sys2Proof.core 41 s =
      .next ((((s.setMatrix S').setPosition r codeStoreState).respond .ok result.toList).setOp .idle) := by
  obtain ⟨-, S', r, htransforms, hrun⟩ := run_walk_end hplan hop hstart
  rw [Nat.sub_zero, List.drop_zero] at htransforms
  rw [htransforms, Option.map_some, Option.some.injEq] at hresult
  exact ⟨S', r, hresult ▸ hrun⟩

/-! ## The three commands from their start -/

/-- A started key expansion ends with the expansion of its key as the table (R128). -/
theorem run_startExpansion {s : State} (hplan : s.plan = []) (key : Block) :
    Host.Core.run Sys2Proof.core 41 (startExpansion key s) =
      .next { s with
        W := expand key, keyValid := true, op := .idle, ki := 44, cmd := none, rsp := s.rsp ++ [⟨.ok, []⟩] } := by
  have hrun := run_expansion (s := startExpansion key s) hplan rfl rfl (le_refl 40)
  have htable : (List.range' 4 40).foldl expandStep (startExpansion key s).W = expand key :=
    expandLoop_loadKeyWords s.W key
  rw [htable] at hrun
  generalize expand key = W' at hrun ⊢
  exact run_succ_of_engineStep hrun hplan (engineStep_of_ksDone rfl rfl)

/-- A started encryption ends with `Encrypt` of its block as the response (R179). -/
theorem run_startEncrypt {s : State} (hplan : s.plan = []) (block : Block) :
    ∃ S' r u, Host.Core.run Sys2Proof.core 41 (startEncrypt block s) =
      .next { s with
        S := S', op := .idle, rnd := r, uop := u, cmd := none,
        rsp := s.rsp ++ [⟨.ok, (encrypt block s.W).toList⟩] } := by
  obtain ⟨S', r, hrun⟩ := run_walk_result (s := startEncrypt block s) hplan (.inl rfl) rfl
    (transformsAlong_encryptWalk s.W block)
  exact ⟨S', r, codeStoreState, hrun⟩

/-- A started decryption ends with `Decrypt` of its block as the response (R179). -/
theorem run_startDecrypt {s : State} (hplan : s.plan = []) (block : Block) :
    ∃ S' r u, Host.Core.run Sys2Proof.core 41 (startDecrypt block s) =
      .next { s with
        S := S', op := .idle, rnd := r, uop := u, cmd := none,
        rsp := s.rsp ++ [⟨.ok, (decrypt block s.W).toList⟩] } := by
  obtain ⟨S', r, hrun⟩ := run_walk_result (s := startDecrypt block s) hplan (.inr rfl) rfl
    (transformsAlong_decryptWalk s.W block)
  exact ⟨S', r, codeStoreState, hrun⟩

/-! ## The accepts -/

/-- An idle engine that holds a LOAD_KEY of 16 bytes starts the expansion (R125). -/
theorem engineStep_of_loadKey {s : State} {key : Block} (hop : s.op = .idle)
    (hcmd : s.cmd = some (encodeMessage 0x01 key.toList)) : engineStep s = .next (startExpansion key s) :=
  (engineStep_of_command hop hcmd (by simp) rfl).trans (execLoadKey_of_key hop key)

/-- An idle engine with a valid key that holds an ENCRYPT of 16 bytes starts the encryption (R174). -/
theorem engineStep_of_encrypt {s : State} {block : Block} (hop : s.op = .idle) (hkey : s.keyValid = true)
    (hcmd : s.cmd = some (encodeMessage 0x02 block.toList)) : engineStep s = .next (startEncrypt block s) :=
  (engineStep_of_command hop hcmd (by simp) rfl).trans (acceptBlock_of_keyValid hop hkey block)

/-- An idle engine with a valid key that holds a DECRYPT of 16 bytes starts the decryption (R174). -/
theorem engineStep_of_decrypt {s : State} {block : Block} (hop : s.op = .idle) (hkey : s.keyValid = true)
    (hcmd : s.cmd = some (encodeMessage 0x03 block.toList)) : engineStep s = .next (startDecrypt block s) :=
  (engineStep_of_command hop hcmd (by simp) rfl).trans (acceptBlock_of_keyValid hop hkey block)

/-- With no host action to come a run whose first step is the engine's goes on from where that leads. -/
theorem run_succ_of_first_engineStep {s u : State} (hplan : s.plan = []) (h : engineStep s = .next u) (n : ℕ) :
    Host.Core.run Sys2Proof.core (n + 1) s = Host.Core.run Sys2Proof.core n u :=
  run_succ_of_step (M := Sys2Proof.core) ((step_of_plan_nil hplan).trans h) n

/-! ## The obligations -/

/-- Settles O41: the accept, and then the run from its start. -/
theorem loadKeyRunsToExpand : Obligations.LoadKeyRunsToExpand := by
  unfold Obligations.LoadKeyRunsToExpand
  intro s key hplan hop hcmd
  refine ⟨44, ?_⟩
  rw [run_succ_of_first_engineStep hplan (engineStep_of_loadKey hop hcmd), run_startExpansion hplan, hop]

/-- Settles O42: the accept, and then the run from its start. -/
theorem encryptRunsToEncrypt : Obligations.EncryptRunsToEncrypt := by
  unfold Obligations.EncryptRunsToEncrypt
  intro s block hplan hop hkey hcmd
  obtain ⟨S', r, u, hrun⟩ := run_startEncrypt hplan block
  refine ⟨S', r, u, ?_⟩
  rw [run_succ_of_first_engineStep hplan (engineStep_of_encrypt hop hkey hcmd), hrun, hop]

/-- Settles O43: the accept, and then the run from its start. -/
theorem decryptRunsToDecrypt : Obligations.DecryptRunsToDecrypt := by
  unfold Obligations.DecryptRunsToDecrypt
  intro s block hplan hop hkey hcmd
  obtain ⟨S', r, u, hrun⟩ := run_startDecrypt hplan block
  refine ⟨S', r, u, ?_⟩
  rw [run_succ_of_first_engineStep hplan (engineStep_of_decrypt hop hkey hcmd), hrun, hop]

/-- Settles O44: the three whole commands one after the other, and `Decrypt` undoes `Encrypt` under the loaded table. -/
theorem engineRoundTrip : Obligations.EngineRoundTrip := by
  unfold Obligations.EngineRoundTrip
  intro s key block hplan hop hcmd
  obtain ⟨t, hload, hplan₁, hop₁, hkey₁, hrsp₁⟩ : ∃ t, Host.Core.run Sys2Proof.core 42 s = .next t ∧
      t.plan = [] ∧ t.op = .idle ∧ t.keyValid = true ∧ t.rsp = s.rsp ++ [⟨.ok, []⟩] := by
    obtain ⟨k, hrun⟩ := loadKeyRunsToExpand s key hplan hop hcmd
    exact ⟨_, hrun, hplan, hop, rfl, rfl⟩
  obtain ⟨u, hencrypt, hplan₂, hop₂, hkey₂, htable₂, hrsp₂⟩ : ∃ u,
      Host.Core.run Sys2Proof.core 42 { t with cmd := some (encodeMessage 0x02 block.toList) } = .next u ∧
      u.plan = [] ∧ u.op = .idle ∧ u.keyValid = true ∧ u.W = t.W ∧
      u.rsp = t.rsp ++ [⟨.ok, (encrypt block t.W).toList⟩] := by
    obtain ⟨S', r, k, hrun⟩ := encryptRunsToEncrypt
      { t with cmd := some (encodeMessage 0x02 block.toList) } block hplan₁ hop₁ hkey₁ rfl
    exact ⟨_, hrun, hplan₁, hop₁, hkey₁, rfl, rfl⟩
  obtain ⟨S', r, k, hdecrypt⟩ := decryptRunsToDecrypt
    { u with cmd := some (encodeMessage 0x03 (encrypt block t.W).toList) } (encrypt block t.W) hplan₂ hop₂ hkey₂ rfl
  refine ⟨t, u, _, encrypt block t.W, hload, hencrypt, ?_, hdecrypt, ?_⟩
  · rw [hrsp₂, hrsp₁, List.append_assoc, List.singleton_append]
  · rw [htable₂, decrypt_encrypt]

end Sys2Proof.Machine
end

section
/-!
PROOFS. Every operation in progress ends, and then the engine takes the command held meanwhile (20_memory.md R77;
60_exceptions.md R208; 70_reset_and_hazards.md R237).
-/

namespace Sys2Proof.Machine

/-! ## From the middle of an operation to its end -/

/-- With no host action to come a key expansion with `n` words left ends in `n + 1` steps. -/
theorem run_expansion_end {s : State} (hplan : s.plan = []) (hop : s.op = .keyExp) {n : ℕ} (hn : n ≤ 40)
    (hki : s.ki = BitVec.ofNat 6 (44 - n)) :
    ∃ W', Host.Core.run Sys2Proof.core (n + 1) s =
      .next (((((s.setTable W').setKi 44).setKeyValid true).setOp .idle).respond .ok []) := by
  induction n generalizing s with
  | zero =>
    have hlast : s.setKi 44 = s := by rw [← show s.ki = 44 from hki]; rfl
    refine ⟨s.W, (run_succ_of_first_engineStep hplan (engineStep_of_ksDone hop hki) 0).trans ?_⟩
    rw [← hlast]; rfl
  | succ n ih =>
    have hstep := engineStep_of_ksWord (i := 44 - (n + 1)) (by omega) (by omega) hop hki
    have hnext : 44 - (n + 1) + 1 = 44 - n := by omega
    rw [hnext] at hstep
    obtain ⟨W', hrun⟩ := ih (s := (s.setTable (expandStep s.W (44 - (n + 1)))).setKi (BitVec.ofNat 6 (44 - n)))
      hplan hop (by omega) rfl
    exact ⟨W', (run_succ_of_first_engineStep hplan hstep (n + 1)).trans hrun⟩

/-- In a state that meets the invariant a block operation is at a position of its walk. -/
theorem Inv.exists_walk_position {s : State} (h : Inv s) (hop : s.op = .enc ∨ s.op = .dec) :
    ∃ m : ℕ, (walk s.op)[m]? = some (s.rnd, s.uop) := by
  have hencrypt : ∀ r u : BitVec 4, onEncryptWalk r u → (r, u) ∈ encryptWalk :=
    forall_position (by unfold onEncryptWalk; decide)
  have hdecrypt : ∀ r u : BitVec 4, onDecryptWalk r u → (r, u) ∈ decryptWalk :=
    forall_position (by unfold onDecryptWalk; decide)
  refine List.mem_iff_getElem?.1 ?_
  obtain hop | hop := hop
  · rw [hop]; exact hencrypt _ _ (h.encrypting hop).2
  · rw [hop]; exact hdecrypt _ _ (h.decrypting hop).2

/-- With no host action to come the operation in progress ends in at most 41 steps: the engine is idle with a valid key, has
answered OK, and has left the CMD port alone. -/
theorem Inv.run_to_idle {s : State} (h : Inv s) (hplan : s.plan = []) (hbusy : s.op ≠ .idle) :
    ∃ n t data, n ≤ 41 ∧ Host.Core.run Sys2Proof.core n s = .next t ∧ t.op = .idle ∧ t.keyValid = true ∧
      t.rsp = s.rsp ++ [⟨.ok, data⟩] ∧ t.cmd = s.cmd ∧ t.plan = [] := by
  obtain hop | hop : s.op = .keyExp ∨ s.op = .enc ∨ s.op = .dec := by
    cases hop : s.op <;> simp [hop] at hbusy ⊢
  · obtain ⟨hlo, hhi, -⟩ := h.expanding hop
    have hlo' : 4 ≤ s.ki.toNat := hlo
    have hhi' : s.ki.toNat ≤ 44 := hhi
    have hki : s.ki = BitVec.ofNat 6 (44 - (44 - s.ki.toNat)) := by rw [Nat.sub_sub_self hhi']; simp
    obtain ⟨W', hrun⟩ := run_expansion_end hplan hop (n := 44 - s.ki.toNat) (by omega) hki
    exact ⟨_, _, [], by omega, hrun, rfl, rfl, rfl, rfl, hplan⟩
  · have hkey : s.keyValid = true := hop.elim (fun henc => (h.encrypting henc).1) fun hdec => (h.decrypting hdec).1
    obtain ⟨m, hpos⟩ := h.exists_walk_position hop
    obtain ⟨-, S', r, -, hrun⟩ := run_walk_end hplan hop hpos
    exact ⟨40 - m + 1, _, _, by omega, hrun, rfl, hkey, rfl, rfl, hplan⟩

/-! ## The command held -/

/-- With no host action to come an idle engine takes the whole message it holds: by the meaning of the command it decodes
to, or by the answer IllegalCommand to a reserved operation code (R77, R97). -/
theorem step_takes_held {t : State} {bytes : List Byte} (hplan : t.plan = []) (hop : t.op = .idle)
    (hcmd : t.cmd = some bytes) (hmessage : isMessage bytes = true) :
    ∃ u, step t = .next u ∧ u.cmd = none ∧
      (∀ i, decode (.message bytes) = .ok i → step t = exec i t) ∧
      (∀ opc, decode (.message bytes) = .error (.reservedOpcode opc) →
        u = { t with cmd := none, rsp := t.rsp ++ [⟨.error .illegalCommand, []⟩] }) := by
  obtain ⟨f, hf, haccept⟩ := engineStep_of_isMessage hmessage t.keyValid
  have hstep := haccept t hop hcmd rfl
  rw [step_of_plan_nil hplan]
  refine ⟨f t, hstep, hf.cmd_eq_none t, fun i hdecode => ?_, fun opc hdecode => ?_⟩
  · exact engineStep_of_fetch_run_of_noBlock (.inl hop) (by rw [fetch_of_held hop hcmd, hdecode, fetched])
  · exact Host.Outcome.next.inj (hstep.symm.trans (engineStep_of_reservedOpcode hop hcmd hdecode))

/-- Settles O49: the operation in progress ends, and the command held is whole. -/
theorem busyEngineFinishes : Obligations.BusyEngineFinishes := by
  unfold Obligations.BusyEngineFinishes
  intro s hinv hplan hbusy
  obtain ⟨n, t, data, hn, hrun, hop, hkey, hrsp, hcmd, htplan⟩ := hinv.run_to_idle hplan hbusy
  exact ⟨n, t, data, hn, hrun, hop, hkey, hrsp, hcmd, fun bytes hheld =>
    step_takes_held htplan hop (hcmd.trans hheld) (hinv.heldIsMessage bytes hheld)⟩

end Sys2Proof.Machine
end

section
/-!
PROOFS. A command under the host's actions (42_cipher_datapath.md R179, R184): what the engine does is what it does alone,
between actions of the host that do not touch it.
-/

namespace Sys2Proof.Machine

/-! ## The engine alone -/

/-- The engine and its responses, with the rest of the host's side taken away. -/
def State.alone (s : State) : State :=
  { s with cmd := none, rspRead := 0, statusReads := [], plan := [], draws := 0 }

theorem op_eq_of_alone_eq {s t : State} (h : s.alone = t.alone) : s.op = t.op :=
  congrArg (a₁ := s.alone) (a₂ := t.alone) State.op h

theorem keyValid_eq_of_alone_eq {s t : State} (h : s.alone = t.alone) : s.keyValid = t.keyValid :=
  congrArg (a₁ := s.alone) (a₂ := t.alone) State.keyValid h

/-- A busy engine makes the transition it makes alone, and the host's plan stays. -/
theorem engineStep_of_alone {s b : State} (hbusy : s.op ≠ .idle) (h : engineStep s.alone = .next b) :
    ∃ t, engineStep s = .next t ∧ t.alone = b ∧ t.plan = s.plan := by
  rcases engineStep_next_of_busy (s := s.alone) hbusy h with ⟨hop, i, h4, hi, hki, rfl⟩ | ⟨hop, hki, rfl⟩ |
    ⟨hop, hu, rfl⟩ | ⟨S', r, k, hnext, hS, rfl⟩
  · exact ⟨_, engineStep_of_ksWord h4 hi hop hki, rfl, rfl⟩
  · exact ⟨_, engineStep_of_ksDone hop hki, rfl, rfl⟩
  · exact ⟨_, engineStep_of_storeState hop hu, rfl, rfl⟩
  · obtain ⟨T', hT, hstep⟩ := engineStep_of_nextPosition (s := s) hnext
    obtain rfl : S' = T' := Option.some.inj (hS.symm.trans hT)
    exact ⟨_, hstep, rfl, rfl⟩

/-! ## Runs under a plan without resets -/

/-- No reset is to come. -/
def NoReset (s : State) : Prop := ∀ a ∈ s.plan, a ≠ .assertReset

theorem NoReset.of_plan_cons {s t : State} {a : HostAction} (h : NoReset s) (hplan : s.plan = a :: t.plan) : NoReset t :=
  fun b hb => h b (hplan ▸ List.mem_cons_of_mem a hb)

/-- A run that goes on takes a first step that does. -/
theorem run_succ_next {M : Host.Core} {n : ℕ} {s b : M.State} (h : M.run (n + 1) s = .next b) :
    ∃ u, M.step s = .next u ∧ M.run n u = .next b := by
  rw [Host.Core.run] at h
  rcases hstep : M.step s with u | f | f <;> rw [hstep] at h
  · exact ⟨u, rfl, h⟩
  · cases h
  · cases h

/-- A run goes on from where a shorter one leads. -/
theorem run_add {M : Host.Core} {m : ℕ} {s t : M.State} (h : M.run m s = .next t) (n : ℕ) :
    M.run (m + n) s = M.run n t := by
  induction m generalizing s with
  | zero => cases h; rw [Nat.zero_add]
  | succ m ih =>
    obtain ⟨u, hstep, hrun⟩ := run_succ_next h
    rw [Nat.succ_add, run_succ_of_step hstep, ih hrun]

/-- After some actions of the host, none of which touches the engine, its responses or a command held, it is the engine's
turn, from `v`. -/
def EngineTurnAfter (s v : State) : Prop :=
  ∃ m u, Host.Core.run Sys2Proof.core m s = .next u ∧ hostTurn u = .engine v ∧ v.alone = s.alone ∧
    (∀ bytes, s.cmd = some bytes → v.cmd = some bytes) ∧ m + v.plan.length ≤ s.plan.length ∧ NoReset v

/-- The engine's turn may be now. -/
theorem engineTurnAfter_of_engine {s v : State} (hturn : hostTurn s = .engine v) (hreset : NoReset s) :
    EngineTurnAfter s v := by
  refine ⟨0, s, rfl, hturn, ?_⟩
  obtain rfl | ⟨rest, hplan, rfl⟩ := engineFrom_of_hostTurn hturn
  · exact ⟨rfl, fun _ h => h, by simp, hreset⟩
  · exact ⟨rfl, fun _ h => h, by simp [hplan], hreset.of_plan_cons hplan⟩

/-- Or after an action of the host. -/
theorem EngineTurnAfter.of_host {s t v : State} (h : EngineTurnAfter t v) (hturn : hostTurn s = .host t)
    (halone : t.alone = s.alone) (hcmd : ∀ bytes, s.cmd = some bytes → t.cmd = some bytes)
    (hlen : t.plan.length + 1 = s.plan.length) : EngineTurnAfter s v := by
  obtain ⟨m, u, hrun, hturn', halone', hcmd', hlen', hreset'⟩ := h
  exact ⟨m + 1, u, (run_succ_of_step (M := Sys2Proof.core) (step_of_hostTurn hturn) m).trans hrun, hturn', halone'.trans halone,
    fun bytes h => hcmd' bytes (hcmd bytes h), by omega, hreset'⟩

/-- Under a plan without a reset the engine gets its turn. -/
theorem exists_engineTurnAfter {s : State} (hreset : NoReset s) : ∃ v, EngineTurnAfter s v := by
  induction hplan : s.plan generalizing s with
  | nil => exact ⟨s, engineTurnAfter_of_engine (by simp only [hostTurn, hplan]) hreset⟩
  | cons a rest ih =>
    have hhost {t : State} (hturn : hostTurn s = .host t) (ht : t.plan = rest) (halone : t.alone = s.alone)
        (hcmd : ∀ bytes, s.cmd = some bytes → t.cmd = some bytes) : ∃ v, EngineTurnAfter s v := by
      obtain ⟨v, hv⟩ := ih (hreset.of_plan_cons (by rw [hplan, ht])) ht
      exact ⟨v, hv.of_host hturn halone hcmd (by rw [hplan, ht, List.length_cons])⟩
    cases a with
    | engineTurn => exact ⟨s.setPlan rest, engineTurnAfter_of_engine (by simp only [hostTurn, hplan]) hreset⟩
    | readStatus => exact hhost (t := (s.setPlan rest).readStatus) (by simp only [hostTurn, hplan]) rfl rfl fun _ h => h
    | assertReset => exact absurd rfl (hreset _ (hplan ▸ List.mem_cons_self))
    | readResponse =>
      by_cases hunread : s.rspRead < s.rsp.length
      · exact hhost (t := (s.setPlan rest).readResponse) (by simp only [hostTurn, hplan, hunread, if_true]) rfl rfl
          fun _ h => h
      · exact ⟨s, engineTurnAfter_of_engine (by simp only [hostTurn, hplan, hunread, if_false]) hreset⟩
    | offer bytes =>
      rcases hcmd : s.cmd with _ | held
      · exact hhost (t := (s.setPlan rest).setCmd (some bytes)) (by simp only [hostTurn, hplan, hcmd]) rfl rfl
          (by simp [hcmd])
      · exact ⟨s, engineTurnAfter_of_engine (by simp only [hostTurn, hplan, hcmd]) hreset⟩

/-- A busy engine makes the transition it makes alone, after some actions of the host. -/
theorem run_transition_of_alone {s b : State} (hreset : NoReset s) (hbusy : s.op ≠ .idle)
    (h : engineStep s.alone = .next b) :
    ∃ m t, Host.Core.run Sys2Proof.core (m + 1) s = .next t ∧ t.alone = b ∧ m + t.plan.length ≤ s.plan.length ∧
      NoReset t := by
  obtain ⟨v, m, u, hrun, hturn, halone, -, hlen, hreset'⟩ := exists_engineTurnAfter hreset
  have hop : v.op = s.op := op_eq_of_alone_eq halone
  obtain ⟨t, hstep, ht, hplan⟩ := engineStep_of_alone (hop ▸ hbusy) (halone ▸ h)
  have hlast := (run_succ_of_run hrun).trans ((step_of_engineTurn hturn).trans hstep)
  exact ⟨m, t, hlast, ht, hplan ▸ hlen, fun a ha => hreset' a (hplan ▸ ha)⟩

/-- A run of the engine alone, busy up to its last step, is made under every plan without a reset, in at most one step more
for each action of the host. -/
theorem run_of_alone {n : ℕ} {s b : State} (hreset : NoReset s)
    (hbusy : ∀ j < n, ∃ c, Host.Core.run Sys2Proof.core j s.alone = .next c ∧ c.op ≠ .idle)
    (h : Host.Core.run Sys2Proof.core n s.alone = .next b) :
    ∃ m t, Host.Core.run Sys2Proof.core m s = .next t ∧ t.alone = b ∧ m + t.plan.length ≤ n + s.plan.length := by
  induction n generalizing s with
  | zero => exact ⟨0, s, rfl, Host.Outcome.next.inj h, le_rfl⟩
  | succ n ih =>
    obtain ⟨c, hc, hcop⟩ := hbusy 0 (by omega)
    cases hc
    obtain ⟨c, hstep, hrun⟩ := run_succ_next h
    have hbusy' : ∀ j < n, ∃ d, Host.Core.run Sys2Proof.core j c = .next d ∧ d.op ≠ .idle := by
      intro j hj
      rw [← run_succ_of_step hstep j]
      exact hbusy (j + 1) (by omega)
    obtain ⟨m, t, hrunt, rfl, hlen, hreset'⟩ :=
      run_transition_of_alone hreset hcop ((step_of_plan_nil rfl).symm.trans hstep)
    obtain ⟨m', t', hrunt', ht', hlen'⟩ := ih hreset' hbusy' hrun
    exact ⟨m + 1 + m', t', (run_add hrunt m').trans hrunt', ht', by omega⟩

/-! ## A whole command -/

/-- A command held by an idle engine that starts an operation, whatever host actions but a reset are to come: the operation
ends as it does for the engine alone. -/
theorem run_command_of_alone {s b : State} {bytes : List Byte} {start : State → State} (hreset : NoReset s)
    (hop : s.op = .idle) (hcmd : s.cmd = some bytes)
    (haccept : ∀ v : State, v.op = .idle → v.cmd = some bytes → v.keyValid = s.keyValid → engineStep v = .next (start v))
    (hstart : ∀ v : State, AtStart (start v) ∧ (start v).plan = v.plan ∧ (start v).alone = start v.alone)
    (h : Host.Core.run Sys2Proof.core 41 (start s.alone) = .next b) :
    ∃ n t, n ≤ 42 + s.plan.length ∧ Host.Core.run Sys2Proof.core n s = .next t ∧ t.alone = b := by
  obtain ⟨v, m, u, hrun, hturn, halone, hheld, hlen, hreset'⟩ := exists_engineTurnAfter hreset
  have hvop : v.op = s.op := op_eq_of_alone_eq halone
  have hvkey : v.keyValid = s.keyValid := keyValid_eq_of_alone_eq halone
  have hstep := haccept v (hvop.trans hop) (hheld bytes hcmd) hvkey
  obtain ⟨-, hplan, hsame⟩ := hstart v
  rw [halone] at hsame
  have hbusy : ∀ j < 41, ∃ c, Host.Core.run Sys2Proof.core j (start v).alone = .next c ∧ c.op ≠ .idle := by
    intro j hj
    obtain ⟨hat, hplanAlone, -⟩ := hstart s.alone
    obtain ⟨c, hc, hcop, -⟩ := hat.run_busy hplanAlone (n := j) (by omega)
    exact ⟨c, hsame ▸ hc, hcop ▸ hat.op_ne_idle⟩
  obtain ⟨m', t, hrun', ht, hlen'⟩ := run_of_alone (s := start v) (fun a ha => hreset' a (hplan ▸ ha)) hbusy (hsame ▸ h)
  have haccepted := (run_succ_of_run hrun).trans ((step_of_engineTurn hturn).trans hstep)
  rw [hplan] at hlen'
  exact ⟨m + 1 + m', t, by omega, (run_add haccepted m').trans hrun', ht⟩

/-- Settles O55: each command ends as it does for the engine alone. -/
theorem commandsFinishUnderEveryPlan : Obligations.CommandsFinishUnderEveryPlan := by
  unfold Obligations.CommandsFinishUnderEveryPlan
  intro s block hop hreset ends
  have hends {W : Table} {data : List Byte} {b : State}
      (hrun : ∃ n t, n ≤ 42 + s.plan.length ∧ Host.Core.run Sys2Proof.core n s = .next t ∧ t.alone = b)
      (hb : b.op = .idle ∧ b.W = W ∧ b.keyValid = true ∧ b.rsp = s.rsp ++ [⟨.ok, data⟩]) : ends W data := by
    obtain ⟨n, t, hn, hrun, rfl⟩ := hrun
    exact ⟨n, t, hn, hrun, hb⟩
  refine ⟨fun hcmd => ?_, fun hkey hcmd => ?_, fun hkey hcmd => ?_⟩
  · have hstart (v : State) : AtStart (startExpansion block v) := .inl ⟨rfl, rfl⟩
    exact hends (run_command_of_alone hreset hop hcmd (fun v hv hheld _ => engineStep_of_loadKey hv hheld)
      (fun v => ⟨hstart v, rfl, rfl⟩) (run_startExpansion (s := s.alone) rfl block)) ⟨rfl, rfl, rfl, rfl⟩
  · have hstart (v : State) : AtStart (startEncrypt block v) := .inr ⟨.inl rfl, rfl⟩
    obtain ⟨S', r, u, hrun⟩ := run_startEncrypt (s := s.alone) rfl block
    exact hends (run_command_of_alone hreset hop hcmd
      (fun v hv hheld hvalid => engineStep_of_encrypt hv (hvalid.trans hkey) hheld)
      (fun v => ⟨hstart v, rfl, rfl⟩) hrun) ⟨rfl, rfl, hkey, rfl⟩
  · have hstart (v : State) : AtStart (startDecrypt block v) := .inr ⟨.inr rfl, rfl⟩
    obtain ⟨S', r, u, hrun⟩ := run_startDecrypt (s := s.alone) rfl block
    exact hends (run_command_of_alone hreset hop hcmd
      (fun v hv hheld hvalid => engineStep_of_decrypt hv (hvalid.trans hkey) hheld)
      (fun v => ⟨hstart v, rfl, rfl⟩) hrun) ⟨rfl, rfl, hkey, rfl⟩

end Sys2Proof.Machine
end
